-- ==== Sys2Proof/Word.lean ====
section
/-! DEFINITION. The word types of the block: the byte of the stream (00_scope.md R6, R7) and the
16-bit field that two stream bytes are joined into (20_memory.md R45). -/

namespace Sys2Proof

/-- A stream byte: 8 bits, unsigned values 0 to 255 (R6, R40). Bit 0 is the least significant (R7). -/
abbrev Byte := BitVec 8

/-- A 16-bit field of an instruction: a displacement, a direct address or an immediate (R6). -/
abbrev Word := BitVec 16

/-- One line of text, without any terminator (R11). -/
abbrev Line := String

end Sys2Proof
end

