-- ==== Sys2Proof/Syntax.lean ====
section
/-! DEFINITION. The syntax: the spec's data types (00_scope.md R12), which name operands and never
values, and `Instr`, one constructor per row of spec/opcode_table.json (30_encoding.md R75). -/

namespace Sys2Proof

/-- The operand width chosen by the `w` bit (R12, R28). -/
inductive Width where
  | byte
  | word
deriving DecidableEq, Repr

/-- A 3-bit register index, 0 to 7 (R6). -/
abbrev RegIndex := Fin 8

/-- A row of the effective-address base table, 0 to 7 (R32). -/
abbrev EaRow := Fin 8

/-- A register reference: a width and an index. It names a register; it holds no value (R12, R21). -/
structure RegRef where
  width : Width
  index : RegIndex
deriving DecidableEq, Repr

/-- An effective address, kept as an expression and never computed (R12, R115). -/
inductive EAExpr where
  /-- A base expression with a signed displacement; 0 when the form has none (R67). -/
  | baseDisp (row : EaRow) (disp : Int)
  /-- A bare unsigned address (R68). -/
  | direct (addr : Nat)
deriving DecidableEq, Repr

/-- An operand of a decoded instruction (R12). -/
inductive Operand where
  | reg (r : RegRef)
  | mem (e : EAExpr)
  | imm (v : Int)
deriving DecidableEq, Repr

/-- The spec's decoded instruction `Mov(dst, src)` (R12): what the formatter turns into a line. -/
structure Move where
  dst : Operand
  src : Operand
deriving DecidableEq, Repr

/-- The instructions as encoded, one constructor per row of spec/opcode_table.json, in its order:
four register/memory opcodes with five addressing forms each (R61 to R63), and the immediate form
at each width (R64, R65). The name says the opcode and the form; `reg` is the register field, `rm` the
r/m field, and the last argument the bytes that follow, as one field. -/
inductive Instr where
  /-- `0x88`, `mod` = 11 (R110, R104). -/
  | movRm8R8Mod11 (reg : RegIndex) (rm : RegIndex)
  /-- `0x88`, `mod` = 00, `rm` not 110 (R110, R105). -/
  | movRm8R8Mod00 (reg : RegIndex) (rm : EaRow)
  /-- `0x88`, `mod` = 00, `rm` = 110 (R110, R106). -/
  | movRm8R8Direct (reg : RegIndex) (addr : Word)
  /-- `0x88`, `mod` = 01 (R110, R107). -/
  | movRm8R8Mod01 (reg : RegIndex) (rm : EaRow) (disp : Byte)
  /-- `0x88`, `mod` = 10 (R110, R108). -/
  | movRm8R8Mod10 (reg : RegIndex) (rm : EaRow) (disp : Word)
  /-- `0x89`, `mod` = 11 (R111, R104). -/
  | movRm16R16Mod11 (reg : RegIndex) (rm : RegIndex)
  /-- `0x89`, `mod` = 00, `rm` not 110 (R111, R105). -/
  | movRm16R16Mod00 (reg : RegIndex) (rm : EaRow)
  /-- `0x89`, `mod` = 00, `rm` = 110 (R111, R106). -/
  | movRm16R16Direct (reg : RegIndex) (addr : Word)
  /-- `0x89`, `mod` = 01 (R111, R107). -/
  | movRm16R16Mod01 (reg : RegIndex) (rm : EaRow) (disp : Byte)
  /-- `0x89`, `mod` = 10 (R111, R108). -/
  | movRm16R16Mod10 (reg : RegIndex) (rm : EaRow) (disp : Word)
  /-- `0x8A`, `mod` = 11 (R112, R104). -/
  | movR8Rm8Mod11 (reg : RegIndex) (rm : RegIndex)
  /-- `0x8A`, `mod` = 00, `rm` not 110 (R112, R105). -/
  | movR8Rm8Mod00 (reg : RegIndex) (rm : EaRow)
  /-- `0x8A`, `mod` = 00, `rm` = 110 (R112, R106). -/
  | movR8Rm8Direct (reg : RegIndex) (addr : Word)
  /-- `0x8A`, `mod` = 01 (R112, R107). -/
  | movR8Rm8Mod01 (reg : RegIndex) (rm : EaRow) (disp : Byte)
  /-- `0x8A`, `mod` = 10 (R112, R108). -/
  | movR8Rm8Mod10 (reg : RegIndex) (rm : EaRow) (disp : Word)
  /-- `0x8B`, `mod` = 11 (R113, R104). -/
  | movR16Rm16Mod11 (reg : RegIndex) (rm : RegIndex)
  /-- `0x8B`, `mod` = 00, `rm` not 110 (R113, R105). -/
  | movR16Rm16Mod00 (reg : RegIndex) (rm : EaRow)
  /-- `0x8B`, `mod` = 00, `rm` = 110 (R113, R106). -/
  | movR16Rm16Direct (reg : RegIndex) (addr : Word)
  /-- `0x8B`, `mod` = 01 (R113, R107). -/
  | movR16Rm16Mod01 (reg : RegIndex) (rm : EaRow) (disp : Byte)
  /-- `0x8B`, `mod` = 10 (R113, R108). -/
  | movR16Rm16Mod10 (reg : RegIndex) (rm : EaRow) (disp : Word)
  /-- `0xB0` to `0xB7` (R133). -/
  | movR8Imm8 (reg : RegIndex) (imm : Byte)
  /-- `0xB8` to `0xBF` (R134). -/
  | movR16Imm16 (reg : RegIndex) (imm : Word)
deriving DecidableEq, Repr

end Sys2Proof
end

