-- ==== Sys2Proof/WellFormed.lean ====
section
/-! DEFINITION. Which terms of the syntax stand for something. An encoded instruction is well formed
unless it is a `mod` = 00 row with `rm` = 110, whose bytes are the direct-address row's (30_encoding.md
R63, R75). A decoded `Move` is well formed when it has one of the operand pairs, and the ranges, of
00_scope.md R12 and 30_encoding.md R73. -/

namespace Sys2Proof

/-- The rows with `mod` = 00 exclude `rm` = 110 (R75, the rows' exclusion); every other field takes
every value (R62, R71). -/
def Instr.wf : Instr → Bool
  | .movRm8R8Mod11 _ _ => true
  | .movRm8R8Mod00 _ rm => rm != 6
  | .movRm8R8Direct _ _ => true
  | .movRm8R8Mod01 _ _ _ => true
  | .movRm8R8Mod10 _ _ _ => true
  | .movRm16R16Mod11 _ _ => true
  | .movRm16R16Mod00 _ rm => rm != 6
  | .movRm16R16Direct _ _ => true
  | .movRm16R16Mod01 _ _ _ => true
  | .movRm16R16Mod10 _ _ _ => true
  | .movR8Rm8Mod11 _ _ => true
  | .movR8Rm8Mod00 _ rm => rm != 6
  | .movR8Rm8Direct _ _ => true
  | .movR8Rm8Mod01 _ _ _ => true
  | .movR8Rm8Mod10 _ _ _ => true
  | .movR16Rm16Mod11 _ _ => true
  | .movR16Rm16Mod00 _ rm => rm != 6
  | .movR16Rm16Direct _ _ => true
  | .movR16Rm16Mod01 _ _ _ => true
  | .movR16Rm16Mod10 _ _ _ => true
  | .movR8Imm8 _ _ => true
  | .movR16Imm16 _ _ => true

/-- The ranges of an effective address (R12). -/
def EAExpr.wf : EAExpr → Bool
  | .baseDisp _ disp => decide (-32768 ≤ disp) && decide (disp ≤ 32767)
  | .direct addr => decide (addr ≤ 65535)

/-- The range of an immediate beside a destination of the given width (R69, R73). -/
def immInRange : Width → Int → Bool
  | .byte, v => decide (-128 ≤ v) && decide (v ≤ 127)
  | .word, v => decide (-32768 ≤ v) && decide (v ≤ 32767)

/-- The operand pairs a line can have (R73): two registers of one width, a register and a memory
operand in either order, or a register and an immediate of its width. -/
def Move.wf : Move → Bool
  | ⟨.reg a, .reg b⟩ => a.width == b.width
  | ⟨.reg _, .mem e⟩ => e.wf
  | ⟨.mem e, .reg _⟩ => e.wf
  | ⟨.reg r, .imm v⟩ => immInRange r.width v
  | ⟨.mem _, .mem _⟩ => false
  | ⟨.mem _, .imm _⟩ => false
  | ⟨.imm _, .reg _⟩ => false
  | ⟨.imm _, .mem _⟩ => false
  | ⟨.imm _, .imm _⟩ => false

end Sys2Proof
end

