-- ==== Sys2Proof/Decode.lean ====
section
/-! DEFINITION. The decoder, total on every list of bytes and rejecting by name, and the encoder
written from the same tables (30_encoding.md). The decoder is the dispatcher of 40_dispatch.md and the
field extraction of the two handlers (41_mov_rm.md, 42_mov_imm.md); what an instruction then prints is
in Machine/. -/

namespace Sys2Proof

/-- The bit field `b[hi:lo]` (R7). -/
def bits (b : Byte) (hi lo : Nat) : Nat :=
  (b.toNat >>> lo) &&& (2 ^ (hi - lo + 1) - 1)

/-- `u16le(lo, hi)` of R8: the byte at the lower stream index is the least significant (R42, R43). -/
def u16le (lo hi : Byte) : Word :=
  BitVec.ofNat 16 (lo.toNat + 256 * hi.toNat)

/-- The byte of a 16-bit field that stands at the lower stream index (R42). -/
def lowByte (x : Word) : Byte := BitVec.ofNat 8 x.toNat

/-- The byte of a 16-bit field that stands at the higher stream index (R42). -/
def highByte (x : Word) : Byte := BitVec.ofNat 8 (x.toNat / 256)

/-- The class of a first byte (R90). -/
inductive OpClass where
  | rmMov
  | immMov
  | unsupported
deriving DecidableEq, Repr

/-- `Classify(b0)`: two mask-and-compare tests (R90). -/
def classify (b0 : Byte) : OpClass :=
  if b0 &&& 0xFC = 0x88 then .rmMov
  else if b0 &&& 0xF0 = 0xB0 then .immMov
  else .unsupported

/-- The addressing mode named by `mod = b1[7:6]` (R62). -/
inductive AddrMode where
  /-- 00: memory without displacement, or the direct address when `rm` = 110. -/
  | memory
  /-- 01: memory with an 8-bit displacement. -/
  | memoryDisp8
  /-- 10: memory with a 16-bit displacement. -/
  | memoryDisp16
  /-- 11: register-direct. -/
  | registerDirect
deriving DecidableEq, Repr

/-- `mod = b1[7:6]` (R62, R101). -/
def modField (b1 : Byte) : AddrMode :=
  match bits b1 7 6 with
  | 0 => .memory
  | 1 => .memoryDisp8
  | 2 => .memoryDisp16
  | _ => .registerDirect

/-- `reg = b1[5:3]` (R62, R101). -/
def regField (b1 : Byte) : RegIndex := Fin.ofNat 8 (bits b1 5 3)

/-- `rm = b1[2:0]` (R62, R101). -/
def rmField (b1 : Byte) : Fin 8 := Fin.ofNat 8 (bits b1 2 0)

/-- The direction bit `d = b0[1]` of format RM (R61, R101). -/
def dirBit (b0 : Byte) : Bool := bits b0 1 1 == 1

/-- The width bit `w = b0[0]` of format RM (R61, R101). -/
def widthBit (b0 : Byte) : Bool := bits b0 0 0 == 1

/-- The width bit `w = b0[3]` of format IMM (R64, R130). -/
def immWidthBit (b0 : Byte) : Bool := bits b0 3 3 == 1

/-- The register field `reg = b0[2:0]` of format IMM (R64, R130). -/
def immRegField (b0 : Byte) : RegIndex := Fin.ofNat 8 (bits b0 2 0)

/-- The row of `mod` = 11 (R104) that the direction and width bits choose (R61). -/
def rowMod11 (d w : Bool) (reg rm : RegIndex) : Instr :=
  match d, w with
  | false, false => .movRm8R8Mod11 reg rm
  | false, true => .movRm16R16Mod11 reg rm
  | true, false => .movR8Rm8Mod11 reg rm
  | true, true => .movR16Rm16Mod11 reg rm

/-- The row of `mod` = 00 with `rm` not 110 (R105) that the direction and width bits choose (R61). -/
def rowMod00 (d w : Bool) (reg : RegIndex) (rm : EaRow) : Instr :=
  match d, w with
  | false, false => .movRm8R8Mod00 reg rm
  | false, true => .movRm16R16Mod00 reg rm
  | true, false => .movR8Rm8Mod00 reg rm
  | true, true => .movR16Rm16Mod00 reg rm

/-- The row of direct address (R106) that the direction and width bits choose (R61). -/
def rowDirect (d w : Bool) (reg : RegIndex) (addr : Word) : Instr :=
  match d, w with
  | false, false => .movRm8R8Direct reg addr
  | false, true => .movRm16R16Direct reg addr
  | true, false => .movR8Rm8Direct reg addr
  | true, true => .movR16Rm16Direct reg addr

/-- The row of `mod` = 01 (R107) that the direction and width bits choose (R61). -/
def rowMod01 (d w : Bool) (reg : RegIndex) (rm : EaRow) (disp : Byte) : Instr :=
  match d, w with
  | false, false => .movRm8R8Mod01 reg rm disp
  | false, true => .movRm16R16Mod01 reg rm disp
  | true, false => .movR8Rm8Mod01 reg rm disp
  | true, true => .movR16Rm16Mod01 reg rm disp

/-- The row of `mod` = 10 (R108) that the direction and width bits choose (R61). -/
def rowMod10 (d w : Bool) (reg : RegIndex) (rm : EaRow) (disp : Word) : Instr :=
  match d, w with
  | false, false => .movRm8R8Mod10 reg rm disp
  | false, true => .movRm16R16Mod10 reg rm disp
  | true, false => .movR8Rm8Mod10 reg rm disp
  | true, true => .movR16Rm16Mod10 reg rm disp

/-- What the decoder makes of a list of bytes. -/
inductive Decoded where
  /-- A complete instruction, and the bytes that follow it. -/
  | ok (i : Instr) (rest : List Byte)
  /-- The first byte matches neither opcode pattern (R92). -/
  | unsupported (byte : Byte)
  /-- The instruction needs `needed` bytes in all, as far as the bytes that exist tell (R172). -/
  | truncated (needed : Nat)
deriving DecidableEq, Repr

/-- Format RM after its two first bytes: the form is chosen by `mod` and `rm` (R63), the row also by `d`
and `w`; the trailing bytes must exist (R102, check 2). -/
def decodeRM (d w : Bool) (b1 : Byte) (rest : List Byte) : Decoded :=
  match modField b1 with
  | .registerDirect => .ok (rowMod11 d w (regField b1) (rmField b1)) rest
  | .memory =>
    if rmField b1 = 6 then
      match rest with
      | lo :: hi :: more => .ok (rowDirect d w (regField b1) (u16le lo hi)) more
      | [_] => .truncated 4
      | [] => .truncated 4
    else .ok (rowMod00 d w (regField b1) (rmField b1)) rest
  | .memoryDisp8 =>
    match rest with
    | disp :: more => .ok (rowMod01 d w (regField b1) (rmField b1) disp) more
    | [] => .truncated 3
  | .memoryDisp16 =>
    match rest with
    | lo :: hi :: more => .ok (rowMod10 d w (regField b1) (rmField b1) (u16le lo hi)) more
    | [_] => .truncated 4
    | [] => .truncated 4

/-- Format IMM after its first byte: one immediate byte, or two (R65, R131). -/
def decodeIMM (w : Bool) (reg : RegIndex) (rest : List Byte) : Decoded :=
  match w with
  | false =>
    match rest with
    | imm :: more => .ok (.movR8Imm8 reg imm) more
    | [] => .truncated 2
  | true =>
    match rest with
    | lo :: hi :: more => .ok (.movR16Imm16 reg (u16le lo hi)) more
    | [_] => .truncated 3
    | [] => .truncated 3

/-- The decoder (R91, R175): classify byte 0, then hand over to the format. With no byte at all the
answer is a truncation that needs one byte (R95). -/
def decode (bytes : List Byte) : Decoded :=
  match bytes with
  | [] => .truncated 1
  | b0 :: rest =>
    match classify b0 with
    | .rmMov =>
      match rest with
      | [] => .truncated 2
      | b1 :: more => decodeRM (dirBit b0) (widthBit b0) b1 more
    | .immMov => decodeIMM (immWidthBit b0) (immRegField b0) rest
    | .unsupported => .unsupported b0

/-- `Len(b0, b1)` (R66), from the two bytes alone; none for an unsupported first byte. -/
def lenFromBytes (b0 b1 : Byte) : Option Nat :=
  if b0 &&& 0xFC = 0x88 then
    if bits b1 7 6 = 0b11 then some 2
    else if bits b1 7 6 = 0b00 ∧ bits b1 2 0 ≠ 0b110 then some 2
    else if bits b1 7 6 = 0b00 ∧ bits b1 2 0 = 0b110 then some 4
    else if bits b1 7 6 = 0b01 then some 3
    else some 4
  else if b0 &&& 0xF0 = 0xB0 then
    if bits b0 3 3 = 0 then some 2 else some 3
  else none

/-! The encoder, and each row's length. -/

/-- The mod/reg/rm byte from its fields (R62). -/
def modRM (mod : Nat) (reg rm : Fin 8) : Byte :=
  BitVec.ofNat 8 (mod * 64 + reg.val * 8 + rm.val)

/-- The opcode byte `1011 w reg` of format IMM (R64). -/
def immOpcode (w : Nat) (reg : RegIndex) : Byte :=
  BitVec.ofNat 8 (0xB0 + w * 8 + reg.val)

/-- The bytes of an instruction in stream order (R61 to R65, `encoding` of spec/opcode_table.json). -/
def encode : Instr → List Byte
  | .movRm8R8Mod11 reg rm => [0x88, modRM 3 reg rm]
  | .movRm8R8Mod00 reg rm => [0x88, modRM 0 reg rm]
  | .movRm8R8Direct reg addr => [0x88, modRM 0 reg 6, lowByte addr, highByte addr]
  | .movRm8R8Mod01 reg rm disp => [0x88, modRM 1 reg rm, disp]
  | .movRm8R8Mod10 reg rm disp => [0x88, modRM 2 reg rm, lowByte disp, highByte disp]
  | .movRm16R16Mod11 reg rm => [0x89, modRM 3 reg rm]
  | .movRm16R16Mod00 reg rm => [0x89, modRM 0 reg rm]
  | .movRm16R16Direct reg addr => [0x89, modRM 0 reg 6, lowByte addr, highByte addr]
  | .movRm16R16Mod01 reg rm disp => [0x89, modRM 1 reg rm, disp]
  | .movRm16R16Mod10 reg rm disp => [0x89, modRM 2 reg rm, lowByte disp, highByte disp]
  | .movR8Rm8Mod11 reg rm => [0x8A, modRM 3 reg rm]
  | .movR8Rm8Mod00 reg rm => [0x8A, modRM 0 reg rm]
  | .movR8Rm8Direct reg addr => [0x8A, modRM 0 reg 6, lowByte addr, highByte addr]
  | .movR8Rm8Mod01 reg rm disp => [0x8A, modRM 1 reg rm, disp]
  | .movR8Rm8Mod10 reg rm disp => [0x8A, modRM 2 reg rm, lowByte disp, highByte disp]
  | .movR16Rm16Mod11 reg rm => [0x8B, modRM 3 reg rm]
  | .movR16Rm16Mod00 reg rm => [0x8B, modRM 0 reg rm]
  | .movR16Rm16Direct reg addr => [0x8B, modRM 0 reg 6, lowByte addr, highByte addr]
  | .movR16Rm16Mod01 reg rm disp => [0x8B, modRM 1 reg rm, disp]
  | .movR16Rm16Mod10 reg rm disp => [0x8B, modRM 2 reg rm, lowByte disp, highByte disp]
  | .movR8Imm8 reg imm => [immOpcode 0 reg, imm]
  | .movR16Imm16 reg imm => [immOpcode 1 reg, lowByte imm, highByte imm]

/-- The total byte count of an instruction (`length` of spec/opcode_table.json; R63, R65). -/
def Instr.length : Instr → Nat
  | .movRm8R8Mod11 _ _ => 2
  | .movRm8R8Mod00 _ _ => 2
  | .movRm8R8Direct _ _ => 4
  | .movRm8R8Mod01 _ _ _ => 3
  | .movRm8R8Mod10 _ _ _ => 4
  | .movRm16R16Mod11 _ _ => 2
  | .movRm16R16Mod00 _ _ => 2
  | .movRm16R16Direct _ _ => 4
  | .movRm16R16Mod01 _ _ _ => 3
  | .movRm16R16Mod10 _ _ _ => 4
  | .movR8Rm8Mod11 _ _ => 2
  | .movR8Rm8Mod00 _ _ => 2
  | .movR8Rm8Direct _ _ => 4
  | .movR8Rm8Mod01 _ _ _ => 3
  | .movR8Rm8Mod10 _ _ _ => 4
  | .movR16Rm16Mod11 _ _ => 2
  | .movR16Rm16Mod00 _ _ => 2
  | .movR16Rm16Direct _ _ => 4
  | .movR16Rm16Mod01 _ _ _ => 3
  | .movR16Rm16Mod10 _ _ _ => 4
  | .movR8Imm8 _ _ => 2
  | .movR16Imm16 _ _ => 3

/-- Whether an instruction's first byte is of the register/memory class (R60). -/
def Instr.isRM (i : Instr) : Bool := classify ((encode i).headD 0) == .rmMov

/-! The opcode table as data (spec/opcode_table.json, read as R75 says). -/

/-- One row: the key's width, the pattern it must give under the mask, the exclusion where the row has
one (mask, pattern), and the total length. -/
structure TableRow where
  keyBits : Nat
  pattern : Nat
  mask : Nat
  exclude : Option (Nat × Nat)
  length : Nat
deriving DecidableEq, Repr

/-- The table's rows of `mov r/m8, r8`, in its order. -/
def rmByteRows : List TableRow :=
  [{ keyBits := 16, pattern := 0x88C0, mask := 0xFFC0, exclude := none, length := 2 },
   { keyBits := 16, pattern := 0x8800, mask := 0xFFC0, exclude := some (0x0007, 0x0006), length := 2 },
   { keyBits := 16, pattern := 0x8806, mask := 0xFFC7, exclude := none, length := 4 },
   { keyBits := 16, pattern := 0x8840, mask := 0xFFC0, exclude := none, length := 3 },
   { keyBits := 16, pattern := 0x8880, mask := 0xFFC0, exclude := none, length := 4 }]

/-- The table's rows of `mov r/m16, r16`, in its order. -/
def rmWordRows : List TableRow :=
  [{ keyBits := 16, pattern := 0x89C0, mask := 0xFFC0, exclude := none, length := 2 },
   { keyBits := 16, pattern := 0x8900, mask := 0xFFC0, exclude := some (0x0007, 0x0006), length := 2 },
   { keyBits := 16, pattern := 0x8906, mask := 0xFFC7, exclude := none, length := 4 },
   { keyBits := 16, pattern := 0x8940, mask := 0xFFC0, exclude := none, length := 3 },
   { keyBits := 16, pattern := 0x8980, mask := 0xFFC0, exclude := none, length := 4 }]

/-- The table's rows of `mov r8, r/m8`, in its order. -/
def byteRmRows : List TableRow :=
  [{ keyBits := 16, pattern := 0x8AC0, mask := 0xFFC0, exclude := none, length := 2 },
   { keyBits := 16, pattern := 0x8A00, mask := 0xFFC0, exclude := some (0x0007, 0x0006), length := 2 },
   { keyBits := 16, pattern := 0x8A06, mask := 0xFFC7, exclude := none, length := 4 },
   { keyBits := 16, pattern := 0x8A40, mask := 0xFFC0, exclude := none, length := 3 },
   { keyBits := 16, pattern := 0x8A80, mask := 0xFFC0, exclude := none, length := 4 }]

/-- The table's rows of `mov r16, r/m16`, in its order. -/
def wordRmRows : List TableRow :=
  [{ keyBits := 16, pattern := 0x8BC0, mask := 0xFFC0, exclude := none, length := 2 },
   { keyBits := 16, pattern := 0x8B00, mask := 0xFFC0, exclude := some (0x0007, 0x0006), length := 2 },
   { keyBits := 16, pattern := 0x8B06, mask := 0xFFC7, exclude := none, length := 4 },
   { keyBits := 16, pattern := 0x8B40, mask := 0xFFC0, exclude := none, length := 3 },
   { keyBits := 16, pattern := 0x8B80, mask := 0xFFC0, exclude := none, length := 4 }]

/-- The table's rows of the two immediate forms, in its order. -/
def immRows : List TableRow :=
  [{ keyBits := 8, pattern := 0xB0, mask := 0xF8, exclude := none, length := 2 },
   { keyBits := 8, pattern := 0xB8, mask := 0xF8, exclude := none, length := 3 }]

/-- The 22 rows, in the table's order. -/
def opcodeTable : List TableRow :=
  rmByteRows ++ rmWordRows ++ byteRmRows ++ wordRmRows ++ immRows

/-- The value a row tests: `b0 * 256 + b1` for a 16-bit key, `b0` for an 8-bit key (R75). -/
def TableRow.key (r : TableRow) (b0 b1 : Byte) : Nat :=
  if r.keyBits = 16 then b0.toNat * 256 + b1.toNat else b0.toNat

/-- Whether a row matches: the pattern under the mask, and not the exclusion (R75). -/
def TableRow.hits (r : TableRow) (b0 b1 : Byte) : Bool :=
  (r.key b0 b1 &&& r.mask) == r.pattern &&
    match r.exclude with
    | some (mask, pattern) => (r.key b0 b1 &&& mask) != pattern
    | none => true

/-- The row of the table, counted from 0, that an instruction's constructor stands for. -/
def Instr.row : Instr → Nat
  | .movRm8R8Mod11 _ _ => 0
  | .movRm8R8Mod00 _ _ => 1
  | .movRm8R8Direct _ _ => 2
  | .movRm8R8Mod01 _ _ _ => 3
  | .movRm8R8Mod10 _ _ _ => 4
  | .movRm16R16Mod11 _ _ => 5
  | .movRm16R16Mod00 _ _ => 6
  | .movRm16R16Direct _ _ => 7
  | .movRm16R16Mod01 _ _ _ => 8
  | .movRm16R16Mod10 _ _ _ => 9
  | .movR8Rm8Mod11 _ _ => 10
  | .movR8Rm8Mod00 _ _ => 11
  | .movR8Rm8Direct _ _ => 12
  | .movR8Rm8Mod01 _ _ _ => 13
  | .movR8Rm8Mod10 _ _ _ => 14
  | .movR16Rm16Mod11 _ _ => 15
  | .movR16Rm16Mod00 _ _ => 16
  | .movR16Rm16Direct _ _ => 17
  | .movR16Rm16Mod01 _ _ _ => 18
  | .movR16Rm16Mod10 _ _ _ => 19
  | .movR8Imm8 _ _ => 20
  | .movR16Imm16 _ _ => 21

/-! The table's own numbering of bits, for the host's questions. -/

/-- Byte `k` of a number, counted from its least significant end. -/
def byteOfNat (x k : Nat) : Byte := BitVec.ofNat 8 (x >>> (8 * k))

/-- The four bytes, in stream order, of an instruction whose bits the table numbers as `w` (R75). A
16-bit key has byte 0 in its high half, an 8-bit key is byte 0; the bytes after the key follow in stream
order, the lowest numbered bits first, and the bits above `nbits` are 0. Byte 0 is taken from the low half
when no more than 8 bits are given, or when only the low half can be the first byte of an instruction
(log entry 5). -/
def tableBytes (nbits w : Nat) : List Byte :=
  let x := w % 2 ^ nbits
  if nbits ≤ 8 || (classify (byteOfNat x 1) != .rmMov && classify (byteOfNat x 0) != .unsupported) then
    [byteOfNat x 0, byteOfNat x 1, byteOfNat x 2, byteOfNat x 3]
  else
    [byteOfNat x 1, byteOfNat x 0, byteOfNat x 2, byteOfNat x 3]

/-- The instruction the decoder reads from the bytes that the table numbers as `w`. -/
def decodeTableWord (nbits w : Nat) : Option Instr :=
  match decode (tableBytes nbits w) with
  | .ok i _ => some i
  | .unsupported _ => none
  | .truncated _ => none

end Sys2Proof
end

