-- ==== Sys2Proof/Machine/Flags.lean ====
section
/-! DEFINITION. The block has no status flag and no condition code (10_state.md R28). What the spec calls
flags are two bits of the instruction being decoded, `w` and `d`: this file says what each selects. -/

namespace Sys2Proof.Machine

/-- The width that the bit `w` selects: 0 is byte, 1 is word (R61, R64, R103). -/
def widthOfFlag (w : Bool) : Width := if w then .word else .byte

/-- The operand order that the bit `d` selects (R109): with `d` = 1 the register operand `R` is the
destination, with `d` = 0 the other operand `X` is. -/
def orderByFlag (d : Bool) (R X : Operand) : Move :=
  if d then { dst := R, src := X } else { dst := X, src := R }

end Sys2Proof.Machine
end

