-- ==== Sys2Proof/Machine/Operands.lean ====
section
/-! DEFINITION. The operand forms: the signed readings of a field (00_scope.md R8) and one operand per
addressing form of the effective-address resolver (41_mov_rm.md R103 to R108) and of the immediate unit
(42_mov_imm.md R132). Nothing here reads a register or forms an address (R115). -/

namespace Sys2Proof.Machine

/-- `s8(b)`: the 8-bit two's-complement reading (R8). -/
def s8 (b : Byte) : Int :=
  if b.toNat < 128 then b.toNat else (b.toNat : Int) - 256

/-- The 16-bit two's-complement reading, `s16le` of R8 on a field already joined by `u16le`. -/
def s16 (x : Word) : Int :=
  if x.toNat < 32768 then x.toNat else (x.toNat : Int) - 65536

/-- `sext_16(v)`: the 16-bit pattern with the same signed value (R8). -/
def sext16 (b : Byte) : Word :=
  if b.toNat < 128 then BitVec.ofNat 16 b.toNat else BitVec.ofNat 16 (b.toNat + 0xFF00)

/-- A register operand of the width that `w` selects (R103, R104). -/
def regOperand (w : Bool) (i : RegIndex) : Operand := .reg ⟨widthOfFlag w, i⟩

/-- `mod` = 00, `rm` not 110: a base expression alone, held as displacement 0 (R105, D15). -/
def memBase (row : EaRow) : Operand := .mem (.baseDisp row 0)

/-- `mod` = 00, `rm` = 110: an unsigned direct address (R106, R68). -/
def memDirect (addr : Word) : Operand := .mem (.direct addr.toNat)

/-- `mod` = 01: a base expression with a signed 8-bit displacement (R107). -/
def memDisp8 (row : EaRow) (disp : Byte) : Operand := .mem (.baseDisp row (s8 disp))

/-- `mod` = 10: a base expression with a signed 16-bit displacement (R108). -/
def memDisp16 (row : EaRow) (disp : Word) : Operand := .mem (.baseDisp row (s16 disp))

/-- A signed 8-bit immediate (R132). -/
def immOperand8 (imm : Byte) : Operand := .imm (s8 imm)

/-- A signed 16-bit immediate (R132). -/
def immOperand16 (imm : Word) : Operand := .imm (s16 imm)

end Sys2Proof.Machine
end

