-- ==== Sys2Proof/Config.lean ====
section
/-! DEFINITION. The parameters the spec leaves OPEN (00_scope.md R6), each a constant with no body:
nothing can be proved about its value, so what is proved holds for every value. -/

namespace Sys2Proof

/-- INPUT_NAME, the text placed in the first preamble line (R6, R163; 92_eei_decisions.md D18).
OPEN in the spec: a free value (log entry 3). A run on another name starts from
`Machine.State.start stream name`. -/
opaque Config.inputName : String

/-- EXIT_STATUS is "any non-zero value" (R6, R182; D11). This free number is the exit status less
one, so that the status is non-zero and nothing else is known of it (log entry 4). -/
opaque Config.exitStatusLessOne : Nat

end Sys2Proof
end

