-- ==== Sys2Proof/Machine/Format.lean ====
section
/-! DEFINITION. The operand formatter, unit OF (43_operand_format.md): the name tables (10_state.md R22,
R23, R32), decimal rendering (00_scope.md R10) and the exact text of each operand and line, with the
two preamble lines (44_sequencer.md R163). -/

namespace Sys2Proof.Machine

/-- `REG8[index]` (R22). -/
def reg8Name : RegIndex → String
  | 0 => "al" | 1 => "cl" | 2 => "dl" | 3 => "bl"
  | 4 => "ah" | 5 => "ch" | 6 => "dh" | 7 => "bh"

/-- `REG16[index]` (R23). -/
def reg16Name : RegIndex → String
  | 0 => "ax" | 1 => "cx" | 2 => "dx" | 3 => "bx"
  | 4 => "sp" | 5 => "bp" | 6 => "si" | 7 => "di"

/-- `EA_BASE[row]` (R32), with the spaces that 90_conflicts.md C1 decides. -/
def eaBase : EaRow → String
  | 0 => "bx + si" | 1 => "bx + di" | 2 => "bp + si" | 3 => "bp + di"
  | 4 => "si" | 5 => "di" | 6 => "bp" | 7 => "bx"

/-- The decimal digits of `n`, most significant first. One unit of fuel is used for each digit but the
first, so `n` units are enough. -/
def decDigits : Nat → Nat → List Char
  | 0, n => [Nat.digitChar (n % 10)]
  | fuel + 1, n =>
    if n < 10 then [Nat.digitChar n] else decDigits fuel (n / 10) ++ [Nat.digitChar (n % 10)]

/-- `dec(n)` (R10). -/
def dec (n : Nat) : String := String.ofList (decDigits n n)

/-- `sdec(v)` (R10). -/
def sdec (v : Int) : String :=
  if 0 ≤ v then dec v.natAbs else "-" ++ dec v.natAbs

/-- The name of a register (R140). -/
def regText (r : RegRef) : String :=
  match r.width with
  | .byte => reg8Name r.index
  | .word => reg16Name r.index

/-- `addr_text` (R142, R144): a zero displacement is not printed, a zero address is. -/
def addrText : EAExpr → String
  | .baseDisp row disp =>
    if disp = 0 then eaBase row
    else if 0 < disp then eaBase row ++ " + " ++ dec disp.natAbs
    else eaBase row ++ " - " ++ dec disp.natAbs
  | .direct addr => dec addr

/-- The text of an operand (R140, R143, R145). -/
def operandText : Operand → String
  | .reg r => regText r
  | .mem e => "[" ++ addrText e ++ "]"
  | .imm v => sdec v

/-- The line of a decoded instruction (R146, R148). -/
def lineText (m : Move) : Line :=
  "mov " ++ operandText m.dst ++ ", " ++ operandText m.src

/-- The two preamble lines (R163). -/
def preamble (name : String) : List Line :=
  ["; " ++ name ++ " disassembly:", "bits 16"]

end Sys2Proof.Machine
end

