-- ==== Sys2Proof/Machine/State.lean ====
section
/-! DEFINITION. The state of the machine as plain data (10_state.md R20), the reasons a step can stop, and
the state at the start of a run (R34, R190). -/

namespace Sys2Proof.Machine

/-- The byte stream `S` (20_memory.md R40): (address, byte) pairs, addresses rising from 0 without a gap
(`Memory.wf`). An address that is not listed does not exist: it reads as no value (R41, R194). The
stream's length `N` is the number of cells. -/
abbrev Memory := List Host.Cell

/-- Whether the run goes on, ended normally, or ended in a fault (R25). -/
inductive Status where
  | run
  | done
  | fault
deriving DecidableEq, Repr

/-- The value the machine latches when a decode raises a fault (60_exceptions.md R170, R173): part of
the state, not a reason for the model to stop. -/
inductive FaultRecord where
  /-- The first byte of an instruction matches no opcode pattern (R171). -/
  | unsupportedOpcode (byte : Byte) (offset : Nat)
  /-- The instruction needs more bytes than remain (R172). -/
  | truncatedInstruction (offset bytesNeeded bytesAvailable : Nat)
deriving DecidableEq, Repr

/-- Everything the spec gives the machine: the four state components of R20 and the run's parameters,
which the machine never writes. -/
structure State where
  /-- `S`, the byte stream; `N` is its length. -/
  stream : Memory
  /-- `INPUT_NAME`. -/
  inputName : String
  /-- The program counter: the offset of the next instruction's first byte (R24). -/
  cursor : Nat
  /-- R25. -/
  status : Status
  /-- The fault that ended the run (R26). -/
  fault : Option FaultRecord
  /-- Every line written so far, preamble first (R27). -/
  sink : List Line
deriving DecidableEq, Repr

/-- Why no step is taken. Both say that the run is over, where 44_sequencer.md R160 enables no step. -/
inductive Fault where
  /-- Raised by `step` when `status` is `DONE` (R25, R160). Safe: the spec enables no step here. -/
  | runIsDone
  /-- Raised by `step` when `status` is `FAULT` (R162, R178). Safe: the spec enables no step here. -/
  | runIsFaulted
deriving DecidableEq, Repr

/-- Why an instruction has no meaning. -/
inductive Refusal where
  /-- For an arm of `exec` that has no meaning yet. Raised by no arm: all are modelled. Safe. -/
  | notModelled (mnemonic : String)
deriving DecidableEq, Repr

/-- The state at the start of a run on a given stream and input name (R34, R190): cursor 0, `RUN`, no
fault, the two preamble lines in the sink (D9). -/
def State.start (stream : Memory) (name : String) : State where
  stream := stream
  inputName := name
  cursor := 0
  status := .run
  fault := none
  sink := preamble name

/-- Reset with nothing supplied by the environment: no stream byte is listed and the input name is the
open parameter (log entries 2 and 3). -/
def State.reset : State := State.start [] Config.inputName

end Sys2Proof.Machine
end

