-- ==== Sys2Proof/Machine/Ops.lean ====
section
/-! DEFINITION. The named operations over the stream and the state: reading the stream (20_memory.md),
fetching, retiring an instruction, taking a fault and ending a run (44_sequencer.md, 60_exceptions.md). -/

namespace Sys2Proof.Machine

/-- `S[a]` (R41): the byte at index `a`, and no value where the address does not exist (R194). -/
def Memory.byteAt (m : Memory) (a : Nat) : Option Byte := List.lookup a m

/-- The bytes of the stream in order. -/
def Memory.bytes (m : Memory) : List Byte := m.map Prod.snd

/-- The stream that holds the given bytes at the indexes 0, 1, 2, … (R40). -/
def Memory.ofBytes (bs : List Byte) : Memory := (List.range bs.length).zip bs

/-- The canonical form: the listed addresses are exactly 0 to `N - 1`, in rising order (R40, R46). No
byte stands for an unlisted address, so there is no default entry to leave out. -/
def Memory.wf (m : Memory) : Bool := m.map Prod.fst == List.range m.length

/-- The bytes that exist from `a` on, at most as many as asked for, each read in ascending order (R45,
D22). -/
def Memory.window (m : Memory) : Nat → Nat → List Byte
  | _, 0 => []
  | a, k + 1 =>
    match m.byteAt a with
    | none => []
    | some b => b :: Memory.window m (a + 1) k

/-- The ENVIRONMENT's placing of bytes into the stream before a run (R192); no step does this. Where
`a` lies past the end, the bytes between are 0 (log entry 6). -/
def Memory.load (m : Memory) (a : Nat) (bs : List Byte) : Memory :=
  Memory.ofBytes
    (m.bytes.take a ++ List.replicate (a - m.length) 0 ++ bs ++ m.bytes.drop (a + bs.length))

/-- The stream's length `N` (R20). -/
def State.n (s : State) : Nat := s.stream.length

/-- The longest instruction is 4 bytes (R60). -/
def maxInstrBytes : Nat := 4

/-- What the decoder makes of the bytes at the cursor. It is shown at most 4 bytes, which settle every
answer, and none that does not exist (R45, R194). -/
def State.fetch (s : State) : Decoded := decode (s.stream.window s.cursor maxInstrBytes)

/-- `Emit(line)` (R27). -/
def State.emit (s : State) (l : Line) : State := { s with sink := s.sink ++ [l] }

/-- `cursor <- cursor + consumed` (R24, R160). -/
def State.advance (s : State) (consumed : Nat) : State := { s with cursor := s.cursor + consumed }

/-- The effect of a successfully decoded instruction (R160): its line is emitted and the cursor moves
past its bytes. Nothing is executed (R21, R115). -/
def retire (m : Move) (consumed : Nat) (s : State) : Host.Outcome State Fault Refusal :=
  .next ((s.emit (lineText m)).advance consumed)

/-- Taking a fault (R162, R176): as one step the fault is latched and the status becomes `FAULT`; the
cursor stays at the instruction's first byte (D12), no line is emitted, nothing else is saved. There is
no return from it (R178). -/
def State.takeFault (s : State) (f : FaultRecord) : State := { s with fault := some f, status := .fault }

/-- `UnsupportedOpcode(byte, offset)` at the cursor (R171). -/
def State.takeUnsupported (s : State) (byte : Byte) : State :=
  s.takeFault (.unsupportedOpcode byte s.cursor)

/-- `TruncatedInstruction(offset, bytes_needed, bytes_available)` at the cursor (R172): the bytes
available are those from the instruction's first byte to the end of the stream. -/
def State.takeTruncated (s : State) (needed : Nat) : State :=
  s.takeFault (.truncatedInstruction s.cursor needed (s.n - s.cursor))

/-- The normal end of a run (R161). -/
def State.finish (s : State) : State := { s with status := .done }

/-- The state in which the environment has placed `bs` at the cursor of a run that goes on. -/
def State.loadAtCursor (s : State) (bs : List Byte) : State :=
  { s with stream := s.stream.load s.cursor bs, status := .run, fault := none }

end Sys2Proof.Machine
end

