-- ==== Sys2Proof/Machine/Immediate.lean ====
section
/-! DEFINITION. The immediate-to-register moves (42_mov_imm.md): the register is always the destination
(R130) and the immediate is signed (R132). -/

namespace Sys2Proof.Machine

/-- `mov r8, imm8`, first byte `0xB0 + reg` (R133); length 2. -/
def execMovR8Imm8 (reg : RegIndex) (imm : Byte) (s : State) : Host.Outcome State Fault Refusal :=
  retire { dst := regOperand false reg, src := immOperand8 imm } 2 s

/-- `mov r16, imm16`, first byte `0xB8 + reg` (R134); length 3. -/
def execMovR16Imm16 (reg : RegIndex) (imm : Word) (s : State) : Host.Outcome State Fault Refusal :=
  retire { dst := regOperand true reg, src := immOperand16 imm } 3 s

end Sys2Proof.Machine
end

