-- ==== Sys2Proof/Machine/RegMem.lean ====
section
/-! DEFINITION. The register/memory moves (41_mov_rm.md): for each of the four opcodes and each of the five
addressing forms, the operand pair (R103 to R109) and the length, handed to `retire`. -/

namespace Sys2Proof.Machine

/-! `mov r/m8, r8`, first byte `0x88`: `d` = 0, `w` = 0 (R110). -/

/-- Register-direct (R110, R104); length 2. -/
def execMovRm8R8Mod11 (reg rm : RegIndex) (s : State) :
    Host.Outcome State Fault Refusal :=
  retire (orderByFlag false (regOperand false reg) (regOperand false rm)) 2 s

/-- Memory without displacement (R110, R105); length 2. -/
def execMovRm8R8Mod00 (reg : RegIndex) (rm : EaRow) (s : State) :
    Host.Outcome State Fault Refusal :=
  retire (orderByFlag false (regOperand false reg) (memBase rm)) 2 s

/-- Direct address (R110, R106); length 4. -/
def execMovRm8R8Direct (reg : RegIndex) (addr : Word) (s : State) :
    Host.Outcome State Fault Refusal :=
  retire (orderByFlag false (regOperand false reg) (memDirect addr)) 4 s

/-- Memory with an 8-bit displacement (R110, R107); length 3. -/
def execMovRm8R8Mod01 (reg : RegIndex) (rm : EaRow) (disp : Byte) (s : State) :
    Host.Outcome State Fault Refusal :=
  retire (orderByFlag false (regOperand false reg) (memDisp8 rm disp)) 3 s

/-- Memory with a 16-bit displacement (R110, R108); length 4. -/
def execMovRm8R8Mod10 (reg : RegIndex) (rm : EaRow) (disp : Word) (s : State) :
    Host.Outcome State Fault Refusal :=
  retire (orderByFlag false (regOperand false reg) (memDisp16 rm disp)) 4 s

/-! `mov r/m16, r16`, first byte `0x89`: `d` = 0, `w` = 1 (R111). -/

/-- Register-direct (R111, R104); length 2. -/
def execMovRm16R16Mod11 (reg rm : RegIndex) (s : State) :
    Host.Outcome State Fault Refusal :=
  retire (orderByFlag false (regOperand true reg) (regOperand true rm)) 2 s

/-- Memory without displacement (R111, R105); length 2. -/
def execMovRm16R16Mod00 (reg : RegIndex) (rm : EaRow) (s : State) :
    Host.Outcome State Fault Refusal :=
  retire (orderByFlag false (regOperand true reg) (memBase rm)) 2 s

/-- Direct address (R111, R106); length 4. -/
def execMovRm16R16Direct (reg : RegIndex) (addr : Word) (s : State) :
    Host.Outcome State Fault Refusal :=
  retire (orderByFlag false (regOperand true reg) (memDirect addr)) 4 s

/-- Memory with an 8-bit displacement (R111, R107); length 3. -/
def execMovRm16R16Mod01 (reg : RegIndex) (rm : EaRow) (disp : Byte) (s : State) :
    Host.Outcome State Fault Refusal :=
  retire (orderByFlag false (regOperand true reg) (memDisp8 rm disp)) 3 s

/-- Memory with a 16-bit displacement (R111, R108); length 4. -/
def execMovRm16R16Mod10 (reg : RegIndex) (rm : EaRow) (disp : Word) (s : State) :
    Host.Outcome State Fault Refusal :=
  retire (orderByFlag false (regOperand true reg) (memDisp16 rm disp)) 4 s

/-! `mov r8, r/m8`, first byte `0x8A`: `d` = 1, `w` = 0 (R112). -/

/-- Register-direct (R112, R104); length 2. -/
def execMovR8Rm8Mod11 (reg rm : RegIndex) (s : State) :
    Host.Outcome State Fault Refusal :=
  retire (orderByFlag true (regOperand false reg) (regOperand false rm)) 2 s

/-- Memory without displacement (R112, R105); length 2. -/
def execMovR8Rm8Mod00 (reg : RegIndex) (rm : EaRow) (s : State) :
    Host.Outcome State Fault Refusal :=
  retire (orderByFlag true (regOperand false reg) (memBase rm)) 2 s

/-- Direct address (R112, R106); length 4. -/
def execMovR8Rm8Direct (reg : RegIndex) (addr : Word) (s : State) :
    Host.Outcome State Fault Refusal :=
  retire (orderByFlag true (regOperand false reg) (memDirect addr)) 4 s

/-- Memory with an 8-bit displacement (R112, R107); length 3. -/
def execMovR8Rm8Mod01 (reg : RegIndex) (rm : EaRow) (disp : Byte) (s : State) :
    Host.Outcome State Fault Refusal :=
  retire (orderByFlag true (regOperand false reg) (memDisp8 rm disp)) 3 s

/-- Memory with a 16-bit displacement (R112, R108); length 4. -/
def execMovR8Rm8Mod10 (reg : RegIndex) (rm : EaRow) (disp : Word) (s : State) :
    Host.Outcome State Fault Refusal :=
  retire (orderByFlag true (regOperand false reg) (memDisp16 rm disp)) 4 s

/-! `mov r16, r/m16`, first byte `0x8B`: `d` = 1, `w` = 1 (R113). -/

/-- Register-direct (R113, R104); length 2. -/
def execMovR16Rm16Mod11 (reg rm : RegIndex) (s : State) :
    Host.Outcome State Fault Refusal :=
  retire (orderByFlag true (regOperand true reg) (regOperand true rm)) 2 s

/-- Memory without displacement (R113, R105); length 2. -/
def execMovR16Rm16Mod00 (reg : RegIndex) (rm : EaRow) (s : State) :
    Host.Outcome State Fault Refusal :=
  retire (orderByFlag true (regOperand true reg) (memBase rm)) 2 s

/-- Direct address (R113, R106); length 4. -/
def execMovR16Rm16Direct (reg : RegIndex) (addr : Word) (s : State) :
    Host.Outcome State Fault Refusal :=
  retire (orderByFlag true (regOperand true reg) (memDirect addr)) 4 s

/-- Memory with an 8-bit displacement (R113, R107); length 3. -/
def execMovR16Rm16Mod01 (reg : RegIndex) (rm : EaRow) (disp : Byte) (s : State) :
    Host.Outcome State Fault Refusal :=
  retire (orderByFlag true (regOperand true reg) (memDisp8 rm disp)) 3 s

/-- Memory with a 16-bit displacement (R113, R108); length 4. -/
def execMovR16Rm16Mod10 (reg : RegIndex) (rm : EaRow) (disp : Word) (s : State) :
    Host.Outcome State Fault Refusal :=
  retire (orderByFlag true (regOperand true reg) (memDisp16 rm disp)) 4 s

end Sys2Proof.Machine
end

