-- ==== Sys2Proof/Machine/Dispatch.lean ====
section
/-! DEFINITION. One arm per instruction. -/

namespace Sys2Proof.Machine

def exec (i : Instr) (s : State) : Host.Outcome State Fault Refusal :=
  match i with
  | .movRm8R8Mod11 reg rm => Sys2Proof.Machine.execMovRm8R8Mod11 reg rm s
  | .movRm8R8Mod00 reg rm => Sys2Proof.Machine.execMovRm8R8Mod00 reg rm s
  | .movRm8R8Direct reg addr => Sys2Proof.Machine.execMovRm8R8Direct reg addr s
  | .movRm8R8Mod01 reg rm disp => Sys2Proof.Machine.execMovRm8R8Mod01 reg rm disp s
  | .movRm8R8Mod10 reg rm disp => Sys2Proof.Machine.execMovRm8R8Mod10 reg rm disp s
  | .movRm16R16Mod11 reg rm => Sys2Proof.Machine.execMovRm16R16Mod11 reg rm s
  | .movRm16R16Mod00 reg rm => Sys2Proof.Machine.execMovRm16R16Mod00 reg rm s
  | .movRm16R16Direct reg addr => Sys2Proof.Machine.execMovRm16R16Direct reg addr s
  | .movRm16R16Mod01 reg rm disp => Sys2Proof.Machine.execMovRm16R16Mod01 reg rm disp s
  | .movRm16R16Mod10 reg rm disp => Sys2Proof.Machine.execMovRm16R16Mod10 reg rm disp s
  | .movR8Rm8Mod11 reg rm => Sys2Proof.Machine.execMovR8Rm8Mod11 reg rm s
  | .movR8Rm8Mod00 reg rm => Sys2Proof.Machine.execMovR8Rm8Mod00 reg rm s
  | .movR8Rm8Direct reg addr => Sys2Proof.Machine.execMovR8Rm8Direct reg addr s
  | .movR8Rm8Mod01 reg rm disp => Sys2Proof.Machine.execMovR8Rm8Mod01 reg rm disp s
  | .movR8Rm8Mod10 reg rm disp => Sys2Proof.Machine.execMovR8Rm8Mod10 reg rm disp s
  | .movR16Rm16Mod11 reg rm => Sys2Proof.Machine.execMovR16Rm16Mod11 reg rm s
  | .movR16Rm16Mod00 reg rm => Sys2Proof.Machine.execMovR16Rm16Mod00 reg rm s
  | .movR16Rm16Direct reg addr => Sys2Proof.Machine.execMovR16Rm16Direct reg addr s
  | .movR16Rm16Mod01 reg rm disp => Sys2Proof.Machine.execMovR16Rm16Mod01 reg rm disp s
  | .movR16Rm16Mod10 reg rm disp => Sys2Proof.Machine.execMovR16Rm16Mod10 reg rm disp s
  | .movR8Imm8 reg imm => Sys2Proof.Machine.execMovR8Imm8 reg imm s
  | .movR16Imm16 reg imm => Sys2Proof.Machine.execMovR16Imm16 reg imm s

end Sys2Proof.Machine
end

