-- ==== Sys2Proof/Machine/Step.lean ====
section
/-! DEFINITION. One step of the machine (44_sequencer.md R160), and the placing of one instruction where the
step fetches it. -/

namespace Sys2Proof.Machine

/-- `Step(state)` (R160). In `RUN`: at the end of the stream the run ends normally (R161); otherwise the
instruction at the cursor is decoded and either has its effect or its fault is taken (R162). In `DONE`
and `FAULT` no step is enabled (R25, R178). -/
def step (s : State) : Host.Outcome State Fault Refusal :=
  match s.status with
  | .done => .fault .runIsDone
  | .fault => .fault .runIsFaulted
  | .run =>
    if s.cursor = s.n then .next s.finish
    else
      match s.fetch with
      | .ok i _ => exec i s
      | .unsupported byte => .next (s.takeUnsupported byte)
      | .truncated needed => .next (s.takeTruncated needed)

/-- The instruction that the opcode table numbers as `w`, placed at the cursor: the environment's load of
a stream (R192), for one instruction (log entry 6). -/
def State.withFetchWord (s : State) (nbits w : Nat) : State :=
  s.loadAtCursor (Sys2Proof.tableBytes nbits w)

end Sys2Proof.Machine
end

