-- ==== Sys2Proof/Machine/Grammar.lean ====
section
/-! DEFINITION. The output grammar of 30_encoding.md R73, with the constraints the rule adds to it. -/

namespace Sys2Proof.Machine

/-- `number` of R73: `"0"`, or a nonzero digit and then digits. -/
def IsNumber (t : String) : Prop :=
  t = "0" ∨ ∃ c cs, t = String.ofList (c :: cs) ∧ c ∈ "123456789".toList ∧
    ∀ d ∈ cs, d ∈ "0123456789".toList

/-- The value of a string of decimal digits. -/
def digitsValue (t : String) : Nat :=
  t.toList.foldl (fun v c => 10 * v + (c.toNat - '0'.toNat)) 0

/-- A `number` whose value lies in a range. -/
def IsNumberIn (lo hi : Nat) (t : String) : Prop :=
  IsNumber t ∧ lo ≤ digitsValue t ∧ digitsValue t ≤ hi

/-- `reg8` of R73. -/
def IsReg8 (t : String) : Prop := t ∈ ["al", "cl", "dl", "bl", "ah", "ch", "dh", "bh"]

/-- `reg16` of R73. -/
def IsReg16 (t : String) : Prop := t ∈ ["ax", "cx", "dx", "bx", "sp", "bp", "si", "di"]

/-- `base` of R73. -/
def IsBase (t : String) : Prop :=
  t ∈ ["bx + si", "bx + di", "bp + si", "bp + di", "si", "di", "bp", "bx"]

/-- `mem` of R73: the number after `" + "` is in 1..32767, after `" - "` in 1..32768, alone inside the
brackets in 0..65535. -/
def IsMem (t : String) : Prop :=
  (∃ b, IsBase b ∧ t = "[" ++ b ++ "]") ∨
  (∃ b k, IsBase b ∧ IsNumberIn 1 32767 k ∧ t = "[" ++ (b ++ " + " ++ k) ++ "]") ∨
  (∃ b k, IsBase b ∧ IsNumberIn 1 32768 k ∧ t = "[" ++ (b ++ " - " ++ k) ++ "]") ∨
  (∃ k, IsNumberIn 0 65535 k ∧ t = "[" ++ k ++ "]")

/-- `imm` of R73, from `-below` to `above`. -/
def IsImm (below above : Nat) (t : String) : Prop :=
  IsNumberIn 0 above t ∨ ∃ k, IsNumberIn 1 below k ∧ t = "-" ++ k

/-- The operand pairs of a format-RM line (R73): the `reg` register and a register of the same width or a
memory operand, in either order. -/
def IsRMLine (t : Line) : Prop :=
  ∃ a b, t = "mov " ++ a ++ ", " ++ b ∧
    ((IsReg8 a ∧ IsReg8 b) ∨ (IsReg16 a ∧ IsReg16 b) ∨
      ((IsReg8 a ∨ IsReg16 a) ∧ IsMem b) ∨ (IsMem a ∧ (IsReg8 b ∨ IsReg16 b)))

/-- The operand pairs of a format-IMM line (R73): a register and an immediate in that width's range. -/
def IsIMMLine (t : Line) : Prop :=
  ∃ a b, t = "mov " ++ a ++ ", " ++ b ∧
    ((IsReg8 a ∧ IsImm 128 127 b) ∨ (IsReg16 a ∧ IsImm 32768 32767 b))

end Sys2Proof.Machine
end

