-- ==== Sys2Proof/Machine/Reference.lean ====
section
/-! DEFINITION. The spec's own pseudocode, rule by rule over the stream and the cursor: `Decode(S, c)`
(40_dispatch.md R91, R95), its two handlers (41_mov_rm.md R114, 42_mov_imm.md R135) and `Step`
(44_sequencer.md R160). The machine in Step.lean goes another way (bytes to a row of the opcode table,
a meaning per row); that the two agree is a statement, not a definition. -/

namespace Sys2Proof.Machine

/-- The result of a `Decode` call (00_scope.md R12, 43_operand_format.md R149). -/
inductive Result where
  | ok (instr : Move) (text : Line) (consumed : Nat)
  | fault (f : FaultRecord)
deriving DecidableEq, Repr

/-- `u16le` of R8, as a number. -/
def u16leNat (lo hi : Byte) : Nat := lo.toNat + 256 * hi.toNat

/-- `s16le` of R8, as a number. -/
def s16leInt (lo hi : Byte) : Int :=
  if u16leNat lo hi < 32768 then u16leNat lo hi else (u16leNat lo hi : Int) - 65536

/-- The operand `X` of R114: from `mod`, `rm`, the width and the trailing bytes; no value if a trailing
byte does not exist. -/
def otherOperand (S : Memory) (c : Nat) (width : Width) (mod : Nat) (rm : Fin 8) : Option Operand :=
  if mod = 0b11 then some (.reg ⟨width, rm⟩)
  else if mod = 0b00 ∧ rm = 0b110 then
    match S.byteAt (c + 2), S.byteAt (c + 3) with
    | some lo, some hi => some (.mem (.direct (u16leNat lo hi)))
    | _, _ => none
  else if mod = 0b00 then some (.mem (.baseDisp rm 0))
  else if mod = 0b01 then
    match S.byteAt (c + 2) with
    | some b => some (.mem (.baseDisp rm (s8 b)))
    | none => none
  else
    match S.byteAt (c + 2), S.byteAt (c + 3) with
    | some lo, some hi => some (.mem (.baseDisp rm (s16leInt lo hi)))
    | _, _ => none

/-- `L` of R114 (R66). -/
def lenRM (mod : Nat) (rm : Fin 8) : Nat :=
  if mod = 0b11 then 2
  else if mod = 0b00 then (if rm = 0b110 then 4 else 2)
  else if mod = 0b01 then 3
  else 4

/-- `DecodeRM(S, c)` (R114), entered with byte 0 read. -/
def decodeRMAt (S : Memory) (c : Nat) (b0 : Byte) : Result :=
  if S.length ≤ c + 1 then .fault (.truncatedInstruction c 2 (S.length - c))
  else
    match S.byteAt (c + 1) with
    | none => .fault (.truncatedInstruction c 2 (S.length - c))
    | some b1 =>
      let width : Width := if bits b0 0 0 = 0 then .byte else .word
      let mod := bits b1 7 6
      let rm := Fin.ofNat 8 (bits b1 2 0)
      let L := lenRM mod rm
      if S.length < c + L then .fault (.truncatedInstruction c L (S.length - c))
      else
        match otherOperand S c width mod rm with
        | none => .fault (.truncatedInstruction c L (S.length - c))
        | some X =>
          let R : Operand := .reg ⟨width, Fin.ofNat 8 (bits b1 5 3)⟩
          let instr : Move := if bits b0 1 1 = 1 then ⟨R, X⟩ else ⟨X, R⟩
          .ok instr (lineText instr) L

/-- The immediate of R135; no value if one of its bytes does not exist. -/
def immediateAt (S : Memory) (c : Nat) (w : Nat) : Option Int :=
  if w = 0 then
    match S.byteAt (c + 1) with
    | some b => some (s8 b)
    | none => none
  else
    match S.byteAt (c + 1), S.byteAt (c + 2) with
    | some lo, some hi => some (s16leInt lo hi)
    | _, _ => none

/-- `DecodeIMM(S, c)` (R135), entered with byte 0 read. -/
def decodeIMMAt (S : Memory) (c : Nat) (b0 : Byte) : Result :=
  let w := bits b0 3 3
  let L := if w = 0 then 2 else 3
  if S.length < c + L then .fault (.truncatedInstruction c L (S.length - c))
  else
    match immediateAt S c w with
    | none => .fault (.truncatedInstruction c L (S.length - c))
    | some imm =>
      let width : Width := if w = 0 then .byte else .word
      let instr : Move := ⟨.reg ⟨width, Fin.ofNat 8 (bits b0 2 0)⟩, .imm imm⟩
      .ok instr (lineText instr) L

/-- `Decode(S, c)` (R91); for `c >= N` the fault of R95. -/
def decodeAt (S : Memory) (c : Nat) : Result :=
  if S.length ≤ c then .fault (.truncatedInstruction c 1 0)
  else
    match S.byteAt c with
    | none => .fault (.truncatedInstruction c 1 0)
    | some b0 =>
      match classify b0 with
      | .rmMov => decodeRMAt S c b0
      | .immMov => decodeIMMAt S c b0
      | .unsupported => .fault (.unsupportedOpcode b0 c)

/-- The body of `Step(state)` (R160), for a state whose status is `RUN`. -/
def specStep (s : State) : State :=
  if s.cursor = s.stream.length then { s with status := .done }
  else
    match decodeAt s.stream s.cursor with
    | .ok _ text consumed => { s with sink := s.sink ++ [text], cursor := s.cursor + consumed }
    | .fault f => { s with fault := some f, status := .fault }

end Sys2Proof.Machine
end

