-- ==== Sys2Proof/Machine/Report.lean ====
section
/-! DEFINITION. What the surrounding software is told of a run (60_exceptions.md R182). The exit status on
a fault is the open non-zero parameter of 00_scope.md R6; the wording of the diagnostic is not modelled
(D11), its content is the fault record. -/

namespace Sys2Proof.Machine

/-- EXIT_STATUS: non-zero, otherwise free (R182, D11). -/
def exitStatus : Nat := Config.exitStatusLessOne + 1

/-- What the host sees. On a normal end no exit status is stated (R182). -/
inductive HostView where
  | running
  | normalEnd
  | abnormalEnd (exitStatus : Nat) (diagnostic : Option FaultRecord)
deriving DecidableEq, Repr

/-- The host's view of a state (R182). -/
def State.hostView (s : State) : HostView :=
  match s.status with
  | .run => .running
  | .done => .normalEnd
  | .fault => .abnormalEnd exitStatus s.fault

end Sys2Proof.Machine
end

