-- ==== Sys2Proof/Safety.lean ====
section
/-! DEFINITION. What counts as a good state of a run, and the words the statements use: the lines decoded so
far (44_sequencer.md R164, R166), the invariant of every state of a run, the effect of a list of
instructions, and the one kind of synonym that length does not tell apart (30_encoding.md R76). -/

namespace Sys2Proof

/-- The register-direct instruction of the other direction that prints the same line (R76): opcode bit
`d` flipped and the two fields exchanged. -/
def Instr.otherDirection : Instr → Option Instr
  | .movRm8R8Mod11 reg rm => some (.movR8Rm8Mod11 rm reg)
  | .movRm8R8Mod00 _ _ => none
  | .movRm8R8Direct _ _ => none
  | .movRm8R8Mod01 _ _ _ => none
  | .movRm8R8Mod10 _ _ _ => none
  | .movRm16R16Mod11 reg rm => some (.movR16Rm16Mod11 rm reg)
  | .movRm16R16Mod00 _ _ => none
  | .movRm16R16Direct _ _ => none
  | .movRm16R16Mod01 _ _ _ => none
  | .movRm16R16Mod10 _ _ _ => none
  | .movR8Rm8Mod11 reg rm => some (.movRm8R8Mod11 rm reg)
  | .movR8Rm8Mod00 _ _ => none
  | .movR8Rm8Direct _ _ => none
  | .movR8Rm8Mod01 _ _ _ => none
  | .movR8Rm8Mod10 _ _ _ => none
  | .movR16Rm16Mod11 reg rm => some (.movRm16R16Mod11 rm reg)
  | .movR16Rm16Mod00 _ _ => none
  | .movR16Rm16Direct _ _ => none
  | .movR16Rm16Mod01 _ _ _ => none
  | .movR16Rm16Mod10 _ _ _ => none
  | .movR8Imm8 _ _ => none
  | .movR16Imm16 _ _ => none

namespace Machine

/-- `Decodes S c ls`: decoding instruction after instruction from offset 0 succeeds up to offset `c` and
gives the lines `ls`. The offset is the sum of the consumed counts (R164), reached in no other way
(R166). -/
inductive Decodes (S : Memory) : Nat → List Line → Prop where
  | start : Decodes S 0 []
  | oneMore {c : Nat} {ls : List Line} {m : Move} {text : Line} {consumed : Nat}
      (before : Decodes S c ls) (here : decodeAt S c = .ok m text consumed) :
      Decodes S (c + consumed) (ls ++ [text])

/-- What every state of a run satisfies. The clause on the lines and the clauses on the end of the run
hold by the spec's decisions D3, D9, D12 and D13 (92_eei_decisions.md). -/
structure State.Inv (s : State) : Prop where
  /-- The stream is in canonical form (R40, R46). -/
  streamWf : s.stream.wf = true
  /-- The cursor never passes the end (R24). -/
  cursorInStream : s.cursor ≤ s.n
  /-- The sink is the preamble and the lines of exactly the instructions before the cursor (R164,
  R167, R177). -/
  linesSoFar : ∃ ls, Decodes s.stream s.cursor ls ∧ s.sink = preamble s.inputName ++ ls
  /-- No fault is latched while the run goes on (R26). -/
  runNoFault : s.status = .run → s.fault = none
  /-- A normal end is at the end of the stream, without a fault (R25, R161). -/
  doneAtEnd : s.status = .done → s.cursor = s.n ∧ s.fault = none
  /-- A fault is the one that `Decode` raises at the cursor, which is inside the stream (R26, R177). -/
  faultIsDecodes : s.status = .fault →
    s.cursor < s.n ∧ ∃ f, s.fault = some f ∧ decodeAt s.stream s.cursor = .fault f

/-- The effect of a list of instructions, one after another. -/
def execAll : List Instr → State → Host.Outcome State Fault Refusal
  | [], s => .next s
  | i :: is, s =>
    match exec i s with
    | .next t => execAll is t
    | .fault r => .fault r
    | .refused r => .refused r

/-- `k` steps one after another, stopping at the first that answers no next state: the host's
`Sys2Proof.core.run`, in this model's own types (`Machine.core_run` in Laws/Step.lean). -/
def runSteps : Nat → State → Host.Outcome State Fault Refusal
  | 0, s => .next s
  | k + 1, s =>
    match step s with
    | .next t => runSteps k t
    | .fault r => .fault r
    | .refused r => .refused r

/-- A state in which a step decodes: the status is `RUN`, the stream is in canonical form, and the bytes at
the cursor begin with the given ones. -/
structure State.Ready (s : State) (bs : List Byte) : Prop where
  running : s.status = .run
  streamWf : s.stream.wf = true
  bytesHere : ∀ k b, bs[k]? = some b → s.stream.byteAt (s.cursor + k) = some b

/-- A state in which the stream, from the cursor to its end, is exactly the given bytes. -/
structure State.ReadyToEnd (s : State) (bs : List Byte) : Prop where
  running : s.status = .run
  streamWf : s.stream.wf = true
  cursorInStream : s.cursor ≤ s.n
  bytesToEnd : s.stream.bytes.drop s.cursor = bs

/-- The instruction at the cursor is decoded as the move `m` with the line `line` and `k` bytes, and the
step has exactly that effect: the line is emitted, the cursor advances, all else stays (R160). -/
def RetiresAs (s : State) (m : Move) (line : Line) (k : Nat) : Prop :=
  decodeAt s.stream s.cursor = .ok m line k ∧
  step s = .next { s with sink := s.sink ++ [line], cursor := s.cursor + k }

/-- Two instructions that print the same line in every state (R76). -/
def SameLine (i j : Instr) : Prop :=
  ∀ s : State, ∃ t u, exec i s = .next t ∧ exec j s = .next u ∧ t.sink = u.sink

/-- The name of register `i` in the table that the width bit selects (R22, R23). -/
def nameOf (w : Bool) (i : RegIndex) : String := if w then reg16Name i else reg8Name i

/-- The line of a register/memory move: `R` is the text of the `reg` register and `X` of the other
operand, in the order that the direction bit selects (R109). -/
def movLine (d : Bool) (R X : String) : Line :=
  if d then "mov " ++ R ++ ", " ++ X else "mov " ++ X ++ ", " ++ R

/-- The move of a register/memory instruction from its `reg` operand and its other operand (R109). -/
def movOf (d : Bool) (R X : Operand) : Move := if d then ⟨R, X⟩ else ⟨X, R⟩

end Machine

end Sys2Proof
end

