-- ==== Sys2Proof/Certificates/Slice0/Obligations.lean ====
section
/-! DEFINITION. The statements for the provers. They come from the numbered rules of spec/; where a
clause rests on one of the spec's own decisions (92_eei_decisions.md D1 to D22), the docstring names it. -/

open Sys2Proof Sys2Proof.Machine

/-! Encoding and decoding. -/

/-- R90: the class of a first byte by its two mask-and-compare tests, the bytes of each class, and the
handler each class is routed to. -/
def Obligations.ClassifyByMaskAndPattern : Prop :=
  (∀ b : Byte,
    (classify b = .rmMov ↔ b &&& 0b11111100 = 0b10001000) ∧
    (classify b = .immMov ↔ b &&& 0b11111100 ≠ 0b10001000 ∧ b &&& 0b11110000 = 0b10110000) ∧
    (classify b = .unsupported ↔ b &&& 0b11111100 ≠ 0b10001000 ∧ b &&& 0b11110000 ≠ 0b10110000) ∧
    (classify b = .rmMov ↔ b ∈ [0x88, 0x89, 0x8A, 0x8B]) ∧
    (classify b = .immMov ↔ 0xB0 ≤ b.toNat ∧ b.toNat ≤ 0xBF)) ∧
  (∀ (b b1 : Byte) (more : List Byte), classify b = .rmMov →
    decode (b :: b1 :: more) = decodeRM (dirBit b) (widthBit b) b1 more) ∧
  (∀ (b : Byte) (more : List Byte), classify b = .immMov →
    decode (b :: more) = decodeIMM (immWidthBit b) (immRegField b) more)

/-- R70 and R93, which the spec derives from R90: the map of the 256 first bytes with its counts, and
that the order of the two tests does not matter. -/
def Obligations.FirstByteMap : Prop :=
  (∀ b : Byte, classify b =
    if 0x88 ≤ b.toNat ∧ b.toNat ≤ 0x8B then .rmMov
    else if 0xB0 ≤ b.toNat ∧ b.toNat ≤ 0xBF then .immMov
    else .unsupported) ∧
  (List.range 256).countP (fun x => classify (BitVec.ofNat 8 x) == .rmMov) = 4 ∧
  (List.range 256).countP (fun x => classify (BitVec.ofNat 8 x) == .immMov) = 16 ∧
  (List.range 256).countP (fun x => classify (BitVec.ofNat 8 x) == .unsupported) = 236 ∧
  (∀ b : Byte, classify b =
    if b &&& 0xF0 = 0xB0 then .immMov else if b &&& 0xFC = 0x88 then .rmMov else .unsupported)

/-- R101: the five fields of format RM are these bits, in both of the rule's spellings, and every
combination of them is legal: four bytes that begin with a format-RM opcode always decode. The last
clause gives the two fields of format IMM in the same way. -/
def Obligations.FieldExtraction : Prop :=
  (∀ b : Byte,
    widthBit b = b.getLsbD 0 ∧ (widthBit b).toNat = b.toNat &&& 1 ∧
    dirBit b = b.getLsbD 1 ∧ (dirBit b).toNat = (b.toNat >>> 1) &&& 1 ∧
    modField b = (match b.toNat >>> 6 with
      | 0 => .memory
      | 1 => .memoryDisp8
      | 2 => .memoryDisp16
      | _ => .registerDirect) ∧
    bits b 7 6 = b.toNat >>> 6 ∧ b.toNat >>> 6 < 4 ∧
    (regField b).val = bits b 5 3 ∧ (regField b).val = (b.toNat >>> 3) &&& 7 ∧
    (rmField b).val = bits b 2 0 ∧ (rmField b).val = b.toNat &&& 7) ∧
  (∀ b0 b1 b2 b3 : Byte, classify b0 = .rmMov → ∃ i rest, decode [b0, b1, b2, b3] = .ok i rest) ∧
  (∀ b : Byte, immWidthBit b = b.getLsbD 3 ∧ (immRegField b).val = b.toNat &&& 7)

/-- R66: the length function of the first two bytes; the count a successful decode consumes, the bytes it
takes and the distance the cursor moves all equal it; an unsupported first byte has no length. -/
def Obligations.ConsumedIsTheLengthFunction : Prop :=
  (∀ (b0 b1 : Byte) (more rest : List Byte) (i : Instr), decode (b0 :: b1 :: more) = .ok i rest →
    lenFromBytes b0 b1 = some i.length ∧
    (b0 :: b1 :: more).length = i.length + rest.length ∧
    ∀ s t, exec i s = .next t → t.cursor = s.cursor + i.length) ∧
  (∀ (S : Memory) (c k : Nat) (m : Move) (text : Line), decodeAt S c = .ok m text k →
    ∃ b0 b1, S.byteAt c = some b0 ∧ S.byteAt (c + 1) = some b1 ∧ lenFromBytes b0 b1 = some k) ∧
  (∀ b0 b1 : Byte, lenFromBytes b0 b1 = none ↔ classify b0 = .unsupported)

/-- Words written out from the spec's encodings (30_encoding.md R61 to R65) decode to the instructions
they stand for: one for each opcode, and for each addressing form. That the direct address of the sixth
word is 0x1234, its low byte first, is decision D6 (log entry 12). -/
def Obligations.SpecimenWordsDecode : Prop :=
  decode [0b10001000, 0b11001000] = .ok (.movRm8R8Mod11 1 0) [] ∧
  decode [0b10001001, 0b11011001] = .ok (.movRm16R16Mod11 3 1) [] ∧
  decode [0b10001010, 0b00000000] = .ok (.movR8Rm8Mod00 0 0) [] ∧
  decode [0b10001011, 0b01000110, 0b11111111] = .ok (.movR16Rm16Mod01 0 6 0xFF) [] ∧
  decode [0b10001001, 0b10001010, 0b00000000, 0b00000001] = .ok (.movRm16R16Mod10 1 2 0x0100) [] ∧
  decode [0b10001000, 0b00000110, 0b00110100, 0b00010010] = .ok (.movRm8R8Direct 0 0x1234) [] ∧
  decode [0b10110001, 0b00001100] = .ok (.movR8Imm8 1 0x0C) [] ∧
  decode [0b10111010, 0b10010100, 0b11110000] = .ok (.movR16Imm16 2 0xF094) []

/-- Decode and encode agree: every well-formed instruction, with every operand at every value, followed
by any bytes, decodes to itself and leaves those bytes (30_encoding.md R61 to R65, R75). -/
def Obligations.DecodeOfEncode : Prop :=
  ∀ (i : Instr) (rest : List Byte), i.wf = true → decode (encode i ++ rest) = .ok i rest

/-- The other direction: bytes that decode are the encoding of the instruction, which is well formed,
and the rest. So every byte sequence has one meaning and no bit of it is dropped (R45, R75, R198). -/
def Obligations.EncodeOfDecode : Prop :=
  ∀ (bs rest : List Byte) (i : Instr), decode bs = .ok i rest → i.wf = true ∧ bs = encode i ++ rest

/-- The opcode table: with its exclusions applied its 22 rows are pairwise disjoint, a key matches no row
exactly when the first byte is unsupported (R75), and the decoder picks the row that matches, with that
row's length. The granularity of the rows is decision D21. -/
def Obligations.OpcodeTableRowsAreTheDecoders : Prop :=
  opcodeTable.length = 22 ∧
  ∀ b0 b1 b2 b3 : Byte,
    (opcodeTable.filter (fun r => r.hits b0 b1)).length =
      (if classify b0 = .unsupported then 0 else 1) ∧
    ∀ i rest, decode [b0, b1, b2, b3] = .ok i rest →
      ∃ r, opcodeTable[i.row]? = some r ∧ r.hits b0 b1 = true ∧ r.length = i.length

/-! One step on the bytes at the cursor, form by form. -/

/-- R104: register-direct. Two bytes are consumed and both operands come from the table that `w`
selects; all pairs of `reg` and `rm`, equal ones too. -/
def Obligations.RegisterDirectBytes : Prop :=
  ∀ (s : State) (b0 b1 : Byte), s.Ready [b0, b1] → classify b0 = .rmMov → bits b1 7 6 = 0b11 →
    RetiresAs s
      (movOf (dirBit b0) (.reg ⟨widthOfFlag (widthBit b0), regField b1⟩)
        (.reg ⟨widthOfFlag (widthBit b0), rmField b1⟩))
      (movLine (dirBit b0) (nameOf (widthBit b0) (regField b1)) (nameOf (widthBit b0) (rmField b1)))
      2

/-- R105: memory without displacement, for the seven `rm` values other than 110. The absent displacement
is held as 0 by decision D15; the text is the base expression alone. -/
def Obligations.MemoryWithoutDisplacementBytes : Prop :=
  ∀ (s : State) (b0 b1 : Byte), s.Ready [b0, b1] → classify b0 = .rmMov → bits b1 7 6 = 0b00 →
    bits b1 2 0 ≠ 0b110 →
    RetiresAs s
      (movOf (dirBit b0) (.reg ⟨widthOfFlag (widthBit b0), regField b1⟩)
        (.mem (.baseDisp (rmField b1) 0)))
      (movLine (dirBit b0) (nameOf (widthBit b0) (regField b1))
        ("[" ++ eaBase (rmField b1) ++ "]"))
      2

/-- R106: the direct address, whatever `d` and `w` are. Four bytes; a bare unsigned number, printed even
when it is 0. That its low byte comes first is decision D6, its decimal format decision D7. -/
def Obligations.DirectAddressBytes : Prop :=
  ∀ (s : State) (b0 b1 lo hi : Byte), s.Ready [b0, b1, lo, hi] → classify b0 = .rmMov →
    bits b1 7 6 = 0b00 → bits b1 2 0 = 0b110 →
    RetiresAs s
      (movOf (dirBit b0) (.reg ⟨widthOfFlag (widthBit b0), regField b1⟩)
        (.mem (.direct (hi ++ lo).toNat)))
      (movLine (dirBit b0) (nameOf (widthBit b0) (regField b1)) ("[" ++ dec (hi ++ lo).toNat ++ "]"))
      4

/-- R107: memory with an 8-bit signed displacement, for all eight `rm` values. Exactly three bytes are
consumed; a displacement byte 0x00 prints no suffix and 0xFF prints `<base> - 1`. -/
def Obligations.Displacement8Bytes : Prop :=
  ∀ (s : State) (b0 b1 b2 : Byte), s.Ready [b0, b1, b2] → classify b0 = .rmMov →
    bits b1 7 6 = 0b01 →
    RetiresAs s
      (movOf (dirBit b0) (.reg ⟨widthOfFlag (widthBit b0), regField b1⟩)
        (.mem (.baseDisp (rmField b1) b2.toInt)))
      (movLine (dirBit b0) (nameOf (widthBit b0) (regField b1))
        ("[" ++ addrText (.baseDisp (rmField b1) b2.toInt) ++ "]"))
      3 ∧
    (b2 = 0x00 → addrText (.baseDisp (rmField b1) b2.toInt) = eaBase (rmField b1)) ∧
    (b2 = 0xFF → addrText (.baseDisp (rmField b1) b2.toInt) = eaBase (rmField b1) ++ " - 1")

/-- R108: memory with a 16-bit signed little-endian displacement, for all eight `rm` values. Four bytes;
the source's example is the last clause. -/
def Obligations.Displacement16Bytes : Prop :=
  (∀ (s : State) (b0 b1 lo hi : Byte), s.Ready [b0, b1, lo, hi] → classify b0 = .rmMov →
    bits b1 7 6 = 0b10 →
    RetiresAs s
      (movOf (dirBit b0) (.reg ⟨widthOfFlag (widthBit b0), regField b1⟩)
        (.mem (.baseDisp (rmField b1) (hi ++ lo).toInt)))
      (movLine (dirBit b0) (nameOf (widthBit b0) (regField b1))
        ("[" ++ addrText (.baseDisp (rmField b1) (hi ++ lo).toInt) ++ "]"))
      4) ∧
  bits 0x8A 7 6 = 0b10 ∧ regField 0x8A = 0b001 ∧ rmField 0x8A = 0b010 ∧
  addrText (.baseDisp 0b010 ((0x01 : Byte) ++ (0x00 : Byte)).toInt) = "bp + si + 256"

/-- R133: the byte immediate. Two bytes; the immediate is signed and in [-128, 127]. That it is signed is
the source's own contract, listed as decision D14. -/
def Obligations.ByteImmediateBytes : Prop :=
  ∀ (s : State) (b0 b1 : Byte), s.Ready [b0, b1] → classify b0 = .immMov → bits b0 3 3 = 0 →
    RetiresAs s ⟨.reg ⟨.byte, immRegField b0⟩, .imm b1.toInt⟩
      ("mov " ++ reg8Name (immRegField b0) ++ ", " ++ sdec b1.toInt) 2 ∧
    -128 ≤ b1.toInt ∧ b1.toInt ≤ 127

/-- R134: the word immediate. Three bytes; the immediate is little-endian, signed and in [-32768, 32767].
That it is signed is the source's own contract, listed as decision D14. -/
def Obligations.WordImmediateBytes : Prop :=
  ∀ (s : State) (b0 lo hi : Byte), s.Ready [b0, lo, hi] → classify b0 = .immMov →
    bits b0 3 3 = 1 →
    RetiresAs s ⟨.reg ⟨.word, immRegField b0⟩, .imm (hi ++ lo).toInt⟩
      ("mov " ++ reg16Name (immRegField b0) ++ ", " ++ sdec (hi ++ lo).toInt) 3 ∧
    -32768 ≤ (hi ++ lo).toInt ∧ (hi ++ lo).toInt ≤ 32767

/-! What each instruction does. Each answers this next state in every state: one line more in the sink,
the cursor past its bytes, everything else as it was. -/

/-- R110, over the forms R104 to R108: `mov r/m8, r8`, first byte 0x88. The number format is decision
D7, the byte order of a direct address decision D6. -/
def Obligations.MovRm8R8Result : Prop :=
  ∀ (s : State) (reg rm : RegIndex) (row : EaRow) (addr : Word) (d8 : Byte) (d16 : Word),
    exec (.movRm8R8Mod11 reg rm) s = .next { s with
      sink := s.sink ++ ["mov " ++ reg8Name rm ++ ", " ++ reg8Name reg], cursor := s.cursor + 2 } ∧
    exec (.movRm8R8Mod00 reg row) s = .next { s with
      sink := s.sink ++ ["mov " ++ ("[" ++ eaBase row ++ "]") ++ ", " ++ reg8Name reg],
      cursor := s.cursor + 2 } ∧
    exec (.movRm8R8Direct reg addr) s = .next { s with
      sink := s.sink ++ ["mov " ++ ("[" ++ dec addr.toNat ++ "]") ++ ", " ++ reg8Name reg],
      cursor := s.cursor + 4 } ∧
    exec (.movRm8R8Mod01 reg row d8) s = .next { s with
      sink := s.sink ++
        ["mov " ++ ("[" ++ addrText (.baseDisp row d8.toInt) ++ "]") ++ ", " ++ reg8Name reg],
      cursor := s.cursor + 3 } ∧
    exec (.movRm8R8Mod10 reg row d16) s = .next { s with
      sink := s.sink ++
        ["mov " ++ ("[" ++ addrText (.baseDisp row d16.toInt) ++ "]") ++ ", " ++ reg8Name reg],
      cursor := s.cursor + 4 }

/-- R111, over the forms R104 to R108: `mov r/m16, r16`, first byte 0x89. The number format is decision
D7, the byte order of a direct address decision D6. -/
def Obligations.MovRm16R16Result : Prop :=
  ∀ (s : State) (reg rm : RegIndex) (row : EaRow) (addr : Word) (d8 : Byte) (d16 : Word),
    exec (.movRm16R16Mod11 reg rm) s = .next { s with
      sink := s.sink ++ ["mov " ++ reg16Name rm ++ ", " ++ reg16Name reg], cursor := s.cursor + 2 } ∧
    exec (.movRm16R16Mod00 reg row) s = .next { s with
      sink := s.sink ++ ["mov " ++ ("[" ++ eaBase row ++ "]") ++ ", " ++ reg16Name reg],
      cursor := s.cursor + 2 } ∧
    exec (.movRm16R16Direct reg addr) s = .next { s with
      sink := s.sink ++ ["mov " ++ ("[" ++ dec addr.toNat ++ "]") ++ ", " ++ reg16Name reg],
      cursor := s.cursor + 4 } ∧
    exec (.movRm16R16Mod01 reg row d8) s = .next { s with
      sink := s.sink ++
        ["mov " ++ ("[" ++ addrText (.baseDisp row d8.toInt) ++ "]") ++ ", " ++ reg16Name reg],
      cursor := s.cursor + 3 } ∧
    exec (.movRm16R16Mod10 reg row d16) s = .next { s with
      sink := s.sink ++
        ["mov " ++ ("[" ++ addrText (.baseDisp row d16.toInt) ++ "]") ++ ", " ++ reg16Name reg],
      cursor := s.cursor + 4 }

/-- R112, over the forms R104 to R108: `mov r8, r/m8`, first byte 0x8A. The number format is decision
D7, the byte order of a direct address decision D6. -/
def Obligations.MovR8Rm8Result : Prop :=
  ∀ (s : State) (reg rm : RegIndex) (row : EaRow) (addr : Word) (d8 : Byte) (d16 : Word),
    exec (.movR8Rm8Mod11 reg rm) s = .next { s with
      sink := s.sink ++ ["mov " ++ reg8Name reg ++ ", " ++ reg8Name rm], cursor := s.cursor + 2 } ∧
    exec (.movR8Rm8Mod00 reg row) s = .next { s with
      sink := s.sink ++ ["mov " ++ reg8Name reg ++ ", " ++ ("[" ++ eaBase row ++ "]")],
      cursor := s.cursor + 2 } ∧
    exec (.movR8Rm8Direct reg addr) s = .next { s with
      sink := s.sink ++ ["mov " ++ reg8Name reg ++ ", " ++ ("[" ++ dec addr.toNat ++ "]")],
      cursor := s.cursor + 4 } ∧
    exec (.movR8Rm8Mod01 reg row d8) s = .next { s with
      sink := s.sink ++
        ["mov " ++ reg8Name reg ++ ", " ++ ("[" ++ addrText (.baseDisp row d8.toInt) ++ "]")],
      cursor := s.cursor + 3 } ∧
    exec (.movR8Rm8Mod10 reg row d16) s = .next { s with
      sink := s.sink ++
        ["mov " ++ reg8Name reg ++ ", " ++ ("[" ++ addrText (.baseDisp row d16.toInt) ++ "]")],
      cursor := s.cursor + 4 }

/-- R113, over the forms R104 to R108: `mov r16, r/m16`, first byte 0x8B. The number format is decision
D7, the byte order of a direct address decision D6. -/
def Obligations.MovR16Rm16Result : Prop :=
  ∀ (s : State) (reg rm : RegIndex) (row : EaRow) (addr : Word) (d8 : Byte) (d16 : Word),
    exec (.movR16Rm16Mod11 reg rm) s = .next { s with
      sink := s.sink ++ ["mov " ++ reg16Name reg ++ ", " ++ reg16Name rm], cursor := s.cursor + 2 } ∧
    exec (.movR16Rm16Mod00 reg row) s = .next { s with
      sink := s.sink ++ ["mov " ++ reg16Name reg ++ ", " ++ ("[" ++ eaBase row ++ "]")],
      cursor := s.cursor + 2 } ∧
    exec (.movR16Rm16Direct reg addr) s = .next { s with
      sink := s.sink ++ ["mov " ++ reg16Name reg ++ ", " ++ ("[" ++ dec addr.toNat ++ "]")],
      cursor := s.cursor + 4 } ∧
    exec (.movR16Rm16Mod01 reg row d8) s = .next { s with
      sink := s.sink ++
        ["mov " ++ reg16Name reg ++ ", " ++ ("[" ++ addrText (.baseDisp row d8.toInt) ++ "]")],
      cursor := s.cursor + 3 } ∧
    exec (.movR16Rm16Mod10 reg row d16) s = .next { s with
      sink := s.sink ++
        ["mov " ++ reg16Name reg ++ ", " ++ ("[" ++ addrText (.baseDisp row d16.toInt) ++ "]")],
      cursor := s.cursor + 4 }

/-- R133 and R134: the two immediate-to-register moves. That the immediate is signed is decision D14. -/
def Obligations.MovImmediateResult : Prop :=
  ∀ (s : State) (reg : RegIndex) (i8 : Byte) (i16 : Word),
    exec (.movR8Imm8 reg i8) s = .next { s with
      sink := s.sink ++ ["mov " ++ reg8Name reg ++ ", " ++ sdec i8.toInt],
      cursor := s.cursor + 2 } ∧
    exec (.movR16Imm16 reg i16) s = .next { s with
      sink := s.sink ++ ["mov " ++ reg16Name reg ++ ", " ++ sdec i16.toInt],
      cursor := s.cursor + 3 }

/-- The frame of all 22 instructions, each of which stores nothing (R40, R160): the stream, read at any
address, the input name, the status and the fault record are as before; the sink has one line more, at
its end, and the cursor moves by the instruction's length. -/
def Obligations.InstructionFrame : Prop :=
  ∀ (i : Instr) (s t : State), exec i s = .next t →
    t.stream = s.stream ∧ (∀ a, t.stream.byteAt a = s.stream.byteAt a) ∧
    t.inputName = s.inputName ∧ t.status = s.status ∧ t.fault = s.fault ∧
    (∃ l, t.sink = s.sink ++ [l]) ∧ t.cursor = s.cursor + i.length

/-! A step runs the decoded instruction. -/

/-- When the bytes at the cursor decode to an instruction, the step is that instruction's effect at that
state; nothing is added around it (R160). -/
def Obligations.StepRunsTheFetchedInstruction : Prop :=
  ∀ (s : State) (i : Instr) (rest : List Byte), s.status = .run → s.cursor ≠ s.n →
    decode (s.stream.window s.cursor maxInstrBytes) = .ok i rest → step s = exec i s

/-- When a well-formed instruction's own bytes stand at the cursor, with anything after them, the step is
that instruction's effect (R61 to R65, R160). -/
def Obligations.StepRunsTheEncodedInstruction : Prop :=
  ∀ (s : State) (i : Instr), i.wf = true → s.Ready (encode i) → step s = exec i s

/-- The model's own placing of one instruction (log entries 5 and 6): the next step runs it. -/
def Obligations.PlacedWordRunsNext : Prop :=
  ∀ (s : State) (nbits w : Nat) (i : Instr), decodeTableWord nbits w = some i →
    step (s.withFetchWord nbits w) = exec i (s.withFetchWord nbits w)

/-! Text. -/

/-- R22, R23, R140 and R141: the name tables, index 0 first, each used for its width, a register operand
that is its name alone, and the base expressions with one space on each side of the `+`. -/
def Obligations.NameTables : Prop :=
  (List.finRange 8).map reg8Name = ["al", "cl", "dl", "bl", "ah", "ch", "dh", "bh"] ∧
  (List.finRange 8).map reg16Name = ["ax", "cx", "dx", "bx", "sp", "bp", "si", "di"] ∧
  (List.finRange 8).map eaBase =
    ["bx + si", "bx + di", "bp + si", "bp + di", "si", "di", "bp", "bx"] ∧
  (∀ i, operandText (.reg ⟨.byte, i⟩) = reg8Name i) ∧
  (∀ i, operandText (.reg ⟨.word, i⟩) = reg16Name i) ∧
  (∀ i, regOperand false i = .reg ⟨.byte, i⟩ ∧ regOperand true i = .reg ⟨.word, i⟩) ∧
  (∀ row, operandText (.mem (.baseDisp row 0)) = "[" ++ eaBase row ++ "]")

/-- R10, R144 and R145: `dec` gives the number in base 10 without leading zeros, `sdec` adds only a
leading minus, an immediate is `sdec` of its value and a direct address `dec` of its own. The format of
the address, and the absence of leading zeros, are decision D7. -/
def Obligations.DecimalNumerals : Prop :=
  (∀ n : Nat, IsNumber (dec n) ∧ digitsValue (dec n) = n) ∧ dec 0 = "0" ∧
  (∀ n : Nat, sdec (n : Int) = dec n) ∧
  (∀ n : Nat, 0 < n → sdec (-(n : Int)) = "-" ++ dec n) ∧
  (∀ v : Int, operandText (.imm v) = sdec v) ∧
  (∀ a : Nat, operandText (.mem (.direct a)) = "[" ++ dec a ++ "]")

/-- R142: the displacement suffix, by the sign of the value; the magnitudes that can follow each sign; the
test is on the value and not on the field's width; the rule's examples. -/
def Obligations.DisplacementSuffix : Prop :=
  (∀ (row : EaRow) (disp : Int),
    (disp = 0 → addrText (.baseDisp row disp) = eaBase row) ∧
    (0 < disp → addrText (.baseDisp row disp) = eaBase row ++ " + " ++ dec disp.toNat) ∧
    (disp < 0 → addrText (.baseDisp row disp) = eaBase row ++ " - " ++ dec (-disp).toNat)) ∧
  (∀ x : Word, (0 < s16 x → 1 ≤ (s16 x).toNat ∧ (s16 x).toNat ≤ 32767) ∧
    (s16 x < 0 → 1 ≤ (-s16 x).toNat ∧ (-s16 x).toNat ≤ 32768)) ∧
  (∀ row : EaRow, addrText (.baseDisp row (s8 0x00)) = eaBase row ∧
    addrText (.baseDisp row (s16 (u16le 0x00 0x00))) = eaBase row) ∧
  addrText (.baseDisp 2 256) = "bp + si + 256" ∧ addrText (.baseDisp 6 (-1)) = "bp - 1" ∧
  addrText (.baseDisp 7 0) = "bx" ∧ addrText (.baseDisp 0 (-32768)) = "bx + si - 32768"

/-- R143 and R146: a memory operand is its address expression in brackets, and a line is `mov`, a space,
the destination, a comma, a space and the source, with nothing after it; the rule's three examples. -/
def Obligations.OperandAndLineText : Prop :=
  (∀ e, operandText (.mem e) = "[" ++ addrText e ++ "]") ∧
  (∀ dst src, lineText ⟨dst, src⟩ = "mov " ++ operandText dst ++ ", " ++ operandText src) ∧
  lineText ⟨.reg ⟨.word, 1⟩, .reg ⟨.word, 3⟩⟩ = "mov cx, bx" ∧
  lineText ⟨.reg ⟨.byte, 0⟩, .mem (.baseDisp 0 0)⟩ = "mov al, [bx + si]" ∧
  lineText ⟨.reg ⟨.byte, 1⟩, .imm 12⟩ = "mov cl, 12"

/-- The readings of R8: `s8` and `s16` are the two's-complement readings, a 16-bit field is joined with
its low byte first (R42), and sign extension keeps the signed value. -/
def Obligations.SignedReadings : Prop :=
  (∀ b : Byte, s8 b = b.toInt ∧ -128 ≤ s8 b ∧ s8 b ≤ 127 ∧ s16 (sext16 b) = s8 b) ∧
  (∀ x : Word, s16 x = x.toInt ∧ -32768 ≤ s16 x ∧ s16 x ≤ 32767) ∧
  (∀ lo hi : Byte, u16le lo hi = hi ++ lo ∧ (u16le lo hi).toNat = u16leNat lo hi ∧
    s16 (u16le lo hi) = s16leInt lo hi)

/-- R109: the direction bit fixes the operand order, and the `reg` field always gives the register
operand. With R116, which the spec derives: a line has brackets exactly when `mod` is not 11. -/
def Obligations.DirectionFixesTheOrder : Prop :=
  ∀ (b0 b1 : Byte) (more rest : List Byte) (i : Instr), classify b0 = .rmMov →
    decode (b0 :: b1 :: more) = .ok i rest →
    ∃ X : String, ('[' ∈ X.toList ↔ bits b1 7 6 ≠ 0b11) ∧
      ∀ s : State, ∃ t, exec i s = .next t ∧
        t.sink = s.sink ++
          [if b0.getLsbD 1 then "mov " ++ nameOf (b0.getLsbD 0) (regField b1) ++ ", " ++ X
           else "mov " ++ X ++ ", " ++ nameOf (b0.getLsbD 0) (regField b1)]

/-- R150, which the spec derives from R148: a line has 9 to 25 characters, both attained, one comma, no
bracket or one pair, and no character outside the rule's list. The bounds and the list rest on the digit
format, decision D7 (log entry 13), and the 25 on the resolution of 90_conflicts.md C8 (log entry 25). -/
def Obligations.LineShape : Prop :=
  (∀ (i : Instr) (s t : State), exec i s = .next t → ∃ l, t.sink = s.sink ++ [l] ∧
    9 ≤ l.length ∧ l.length ≤ 25 ∧ l.toList.count ',' = 1 ∧
    ((l.toList.count '[' = 0 ∧ l.toList.count ']' = 0) ∨
      (l.toList.count '[' = 1 ∧ l.toList.count ']' = 1)) ∧
    ∀ c ∈ l.toList, c ∈ "abcdhilmopsvx0123456789 ,[]+-".toList) ∧
  (∀ s : State, ∃ t l, exec (.movR8Imm8 0 0) s = .next t ∧ t.sink = s.sink ++ [l] ∧ l.length = 9) ∧
  (∀ s : State, ∃ t l, exec (.movRm16R16Mod10 0 0 0x8000) s = .next t ∧ t.sink = s.sink ++ [l] ∧
    l.length = 25)

/-- From R73: every line an instruction prints is a sentence of the output grammar, with the operand kinds
and widths of its format and the ranges of the numbers. Which operand is the `reg` register is said in
`DirectionFixesTheOrder`. Numbers without leading zeros are decision D7 (log entry 13), the signed range
of an immediate is decision D14 (log entry 18). -/
def Obligations.LinesFollowTheGrammar : Prop :=
  ∀ (i : Instr) (s t : State), exec i s = .next t → ∃ l, t.sink = s.sink ++ [l] ∧
    (i.isRM = true → IsRMLine l) ∧ (i.isRM = false → IsIMMLine l)

/-- The operand pair can be recovered from the line: two different moves never have the same line
(90_conflicts.md C5). It rests on the digit format, decision D7 (log entry 13). -/
def Obligations.LineDeterminesTheMove : Prop :=
  ∀ m m' : Move, lineText m = lineText m' → m = m'

/-- R136, which the spec derives: two different instructions of format IMM never give the same line. It
rests on the digit format, decision D7, and on signed immediates, decision D14 (log entries 13 and 18). -/
def Obligations.ImmediateLinesDiffer : Prop :=
  ∀ (i j : Instr) (s t u : State), i.isRM = false → j.isRM = false →
    exec i s = .next t → exec j s = .next u → t.sink = u.sink → i = j

/-- R76, which the spec derives: the three kinds of synonym. Exchanging the fields and the direction of a
register-direct move changes nothing; a zero displacement prints as no displacement, at either width; a
displacement that fits 8 bits prints the same from either width. The absent displacement is held as 0 by
decision D15. -/
def Obligations.SynonymousEncodings : Prop :=
  (∀ i j : Instr, i.otherDirection = some j → i ≠ j ∧ ∀ s : State, exec i s = exec j s) ∧
  (∀ (d w : Bool) (reg : RegIndex) (row : EaRow),
    SameLine (rowMod01 d w reg row 0) (rowMod10 d w reg row 0) ∧
    (row ≠ 6 → SameLine (rowMod00 d w reg row) (rowMod01 d w reg row 0))) ∧
  (∀ (d w : Bool) (reg : RegIndex) (row : EaRow) (b : Byte),
    SameLine (rowMod01 d w reg row b) (rowMod10 d w reg row (b.signExtend 16)))

/-- R76: the line and the consumed count together tell all other encodings apart. Two well-formed
instructions instructions with the same effect on some state are equal, or are the two directions of one
register-direct move. It rests on decisions D6, D7 and D14 (log entries 12, 13 and 18). -/
def Obligations.SameEffectOnlyForOtherDirection : Prop :=
  ∀ (i j : Instr) (s t : State), i.wf = true → j.wf = true →
    exec i s = .next t → exec j s = .next t → i = j ∨ i.otherDirection = some j

/-! Faults. -/

/-- R92: an unsupported first byte is a fault that carries the byte and its offset, whatever follows it or
whether anything does, and it ends the run: no step follows. -/
def Obligations.UnsupportedFirstByteFaults : Prop :=
  (∀ (s : State) (b : Byte), s.Ready [b] → classify b = .unsupported →
    decodeAt s.stream s.cursor = .fault (.unsupportedOpcode b s.cursor) ∧
    ∃ t, step s = .next t ∧ t.fault = some (.unsupportedOpcode b s.cursor) ∧ ∀ u, step t ≠ .next u) ∧
  decodeAt (Memory.ofBytes [0x00]) 0 = .fault (.unsupportedOpcode 0x00 0)

/-- A truncated instruction. Where the stream ends inside an instruction, after at least one byte of it,
the step takes `TruncatedInstruction` with the instruction's offset, the length known so far (2 when a
format-RM instruction lacks its second byte) and the bytes there are. The payload is decision D4, the
cursor that stays decision D12, the status and the record decision D3. -/
def Obligations.TruncatedInstructionFaults : Prop :=
  ∀ (s : State) (i : Instr) (here missing : List Byte), i.wf = true →
    encode i = here ++ missing → here ≠ [] → missing ≠ [] → s.ReadyToEnd here →
    step s = .next { s with
      status := .fault,
      fault := some (.truncatedInstruction s.cursor
        (if here.length = 1 ∧ i.isRM = true then 2 else i.length) here.length) }

/-- The `Decode` call outside its contract is a fault that reads nothing (decision D5), and so is the step
of a state, which no run reaches, whose cursor is past the end. -/
def Obligations.DecodePastTheEnd : Prop :=
  (∀ (S : Memory) (c : Nat), S.length ≤ c → decodeAt S c = .fault (.truncatedInstruction c 1 0)) ∧
  (∀ s : State, s.status = .run → s.stream.wf = true → s.n < s.cursor →
    step s = .next { s with status := .fault, fault := some (.truncatedInstruction s.cursor 1 0) })

/-- Taking a fault. A step into `FAULT` latches the fault that `Decode` raises at the cursor and changes
nothing but the status: no line, no cursor move. The cursor that stays is decision D12, the two state
components decision D3, and the lines that stay decision D13. -/
def Obligations.FaultIsLatchedAndNothingElse : Prop :=
  ∀ s t : State, s.stream.wf = true → step s = .next t → t.status = .fault →
    ∃ f, decodeAt s.stream s.cursor = .fault f ∧ t = { s with fault := some f, status := .fault }

/-- The two fault kinds and their payloads: the offset is the cursor; an unsupported byte is the byte
there; a truncation has fewer bytes than it needs, and needs 1 to 4 with 0 to 3 there (R12, R172). The
payload is decision D4 (log entry 10). The need of 1 byte arises only at an offset at or past the end,
which is decision D5 (log entry 11). -/
def Obligations.FaultPayloads : Prop :=
  ∀ (S : Memory) (c : Nat) (f : FaultRecord), S.wf = true → decodeAt S c = .fault f →
    (∃ b, f = .unsupportedOpcode b c ∧ S.byteAt c = some b ∧ classify b = .unsupported) ∨
    (∃ needed, f = .truncatedInstruction c needed (S.length - c) ∧
      S.length - c < needed ∧ 1 ≤ needed ∧ needed ≤ 4)

/-! The sequencer. -/

/-- R161: with the cursor at the end of the stream a run that goes on ends normally, with nothing else
changed; and this is the only normal end. An empty stream ends so on its first step. -/
def Obligations.NormalEnd : Prop :=
  (∀ s : State, s.status = .run → s.cursor = s.n → step s = .next { s with status := .done }) ∧
  (∀ s t : State, step s = .next t → t.status = .done → s.cursor = s.n) ∧
  (∀ name : String, step (State.start [] name) =
    .next { State.start [] name with status := .done })

/-- In `DONE` and `FAULT` no step is enabled, and in `RUN` one always is: the run goes on or ends, and no
instruction is refused (R25, R160, R178; the status values are decision D3). -/
def Obligations.StepIsEnabledExactlyInRun : Prop :=
  ∀ s : State,
    (s.status = .done → step s = .fault .runIsDone) ∧
    (s.status = .fault → step s = .fault .runIsFaulted) ∧
    (s.status = .run → ∃ t, step s = .next t)

/-- R24 and R164: a step that emits a line increases the cursor by 2, 3 or 4, not past the end, and adds
that one line; a step that ends the run leaves the cursor and the sink as they are. -/
def Obligations.CursorAdvancesByWholeInstructions : Prop :=
  ∀ s t : State, s.stream.wf = true → step s = .next t →
    (t.status = .run ∧ (∃ l, t.sink = s.sink ++ [l]) ∧ t.cursor ≤ t.n ∧
      (t.cursor = s.cursor + 2 ∨ t.cursor = s.cursor + 3 ∨ t.cursor = s.cursor + 4)) ∨
    (t.status ≠ .run ∧ t.sink = s.sink ∧ t.cursor = s.cursor)

/-- R40 and R50: no step writes the stream; every address reads as before, and the input name stays. -/
def Obligations.StreamIsNeverWritten : Prop :=
  ∀ s t : State, step s = .next t →
    t.stream = s.stream ∧ t.inputName = s.inputName ∧
    ∀ a, t.stream.byteAt a = s.stream.byteAt a

/-- R41 and R194: in a canonical stream a read has a value exactly at the indexes below `N`, the value is
the byte that stands there, and the stream of given bytes is canonical. -/
def Obligations.ReadsAreDefinedBelowTheLength : Prop :=
  (∀ (m : Memory) (a : Nat), m.wf = true →
    ((∃ b, m.byteAt a = some b) ↔ a < m.length) ∧ m.byteAt a = m.bytes[a]?) ∧
  (∀ (bs : List Byte) (a : Nat), (Memory.ofBytes bs).wf = true ∧
    (Memory.ofBytes bs).byteAt a = bs[a]?)

/-- R34: the state after reset, on every stream and input name. The status, the fault record and the
presence of the preamble are decisions D3 and D9; reset itself has an empty stream and the open input
name (log entries 2 and 3). -/
def Obligations.ResetValues : Prop :=
  (∀ (S : Memory) (name : String),
    (State.start S name).cursor = 0 ∧ (State.start S name).status = .run ∧
    (State.start S name).fault = none ∧ (State.start S name).stream = S ∧
    (State.start S name).inputName = name ∧
    (State.start S name).sink = ["; " ++ name ++ " disassembly:", "bits 16"]) ∧
  State.reset = State.start [] Config.inputName

/-- The start of a run on any bytes and any input name meets the invariant, and so does reset. -/
def Obligations.StartMeetsTheInvariant : Prop :=
  (∀ (bs : List Byte) (name : String), (State.start (Memory.ofBytes bs) name).Inv) ∧ State.reset.Inv

/-- Every step keeps the invariant: the cursor stays in the stream, the sink is the preamble followed by
the lines of exactly the instructions before the cursor, and a latched fault is the one `Decode` raises
there, so that faults are precise (R24, R164, R166, R177; decisions D3, D9, D12, D13). -/
def Obligations.StepKeepsTheInvariant : Prop :=
  ∀ s t : State, s.Inv → step s = .next t → t.Inv

/-- The machine, which decodes bytes to a row of the opcode table and runs that row's meaning, does what
the spec's own pseudocode does: `Step` of R160 over `Decode(S, c)` of R91, R114 and R135. The pseudocode
carries decisions D3, D4, D5, D6, D12, D14 and D15. -/
def Obligations.StepIsTheSpecsStep : Prop :=
  ∀ s : State, s.stream.wf = true → s.status = .run → step s = .next (specStep s)

/-- What a successful `Decode` returns: a well-formed move whose text is its line, and 2, 3 or 4 bytes
consumed, all of them in the stream (R12, R24, R73, R149). The signed range of an immediate is decision
D14 (log entry 18). -/
def Obligations.DecodedMovesAreWellFormed : Prop :=
  ∀ (S : Memory) (c k : Nat) (m : Move) (text : Line), decodeAt S c = .ok m text k →
    m.wf = true ∧ text = lineText m ∧ 2 ≤ k ∧ k ≤ 4 ∧ c + k ≤ S.length

/-- R45, R30 and R116: a successful decode depends on nothing but the instruction's own bytes: two streams
that agree there give the same result, whatever else they hold. -/
def Obligations.DecodeDependsOnItsBytesOnly : Prop :=
  ∀ (S T : Memory) (c k : Nat) (m : Move) (text : Line), S.wf = true → T.wf = true →
    decodeAt S c = .ok m text k →
    (∀ a, c ≤ a → a < c + k → T.byteAt a = S.byteAt a) → decodeAt T c = .ok m text k

/-- R30: what a step does never depends on the lines already written nor on the input name: from two
states that differ only there, it does the same and adds the same lines. -/
def Obligations.StepIgnoresEarlierOutput : Prop :=
  ∀ (s : State) (name : String) (lines : List Line),
    step { s with inputName := name, sink := lines } =
      match step s with
      | .next t => .next { t with
          inputName := name, sink := lines ++ t.sink.drop s.sink.length }
      | .fault r => .fault r
      | .refused r => .refused r

/-- Every run ends: from a state whose cursor is in the stream, after at most half the remaining bytes
and one more step the status is no longer `RUN` (R167, R197; steps as time are decision D20). -/
def Obligations.EveryRunEnds : Prop :=
  ∀ s : State, s.status = .run → s.stream.wf = true → s.cursor ≤ s.n →
    ∃ k t, k ≤ (s.n - s.cursor) / 2 + 1 ∧ runSteps k s = .next t ∧ t.status ≠ .run

/-- A run over the encodings of any well-formed instructions has their effects in order, and then ends
normally at the end of the stream (R166, R167). -/
def Obligations.RunPrintsEveryInstruction : Prop :=
  ∀ (s : State) (is : List Instr), (∀ i ∈ is, i.wf = true) → s.ReadyToEnd (is.flatMap encode) →
    ∃ t, execAll is s = .next t ∧ runSteps is.length s = .next t ∧ t.cursor = t.n ∧
      t.sink.length = s.sink.length + is.length ∧
      runSteps (is.length + 1) s = .next { t with status := .done }

/-- A run over the encodings of any well-formed instructions followed by bytes that do not decode has the
instructions' effects in order and then takes that fault, at the offset where those bytes begin, with
the lines kept (R167, R177; decisions D4, D12, D13). -/
def Obligations.RunStopsAtTheFirstFault : Prop :=
  ∀ (s : State) (is : List Instr) (bad : List Byte), (∀ i ∈ is, i.wf = true) → bad ≠ [] →
    s.ReadyToEnd (is.flatMap encode ++ bad) →
    (∀ b, decode bad = .unsupported b → ∃ t, execAll is s = .next t ∧
      runSteps (is.length + 1) s = .next { t with
        status := .fault, fault := some (.unsupportedOpcode b (s.n - bad.length)) }) ∧
    (∀ needed, decode bad = .truncated needed → ∃ t, execAll is s = .next t ∧
      runSteps (is.length + 1) s = .next { t with
        status := .fault,
        fault := some (.truncatedInstruction (s.n - bad.length) needed bad.length) })

/-- The example of R196, which the spec derives: decoding is not self-synchronising, so the same stream
gives one instruction from offset 0 and another from offset 1. The negative immediate is decision D14 (log
entry 18). -/
def Obligations.MidInstructionEntry : Prop :=
  decodeAt (Memory.ofBytes [0xB8, 0x89, 0xD9]) 0 =
    .ok ⟨.reg ⟨.word, 0⟩, .imm (-9847)⟩ "mov ax, -9847" 3 ∧
  decodeAt (Memory.ofBytes [0xB8, 0x89, 0xD9]) 1 =
    .ok ⟨.reg ⟨.word, 1⟩, .reg ⟨.word, 3⟩⟩ "mov cx, bx" 2

/-- What the host sees (R182): nothing final while the run goes on, a normal end, or an abnormal end with a
non-zero status and the fault record as diagnostic. The status's value is open (decision D11). -/
def Obligations.HostSeesTheOutcome : Prop :=
  exitStatus ≠ 0 ∧
  ∀ s : State,
    (s.status = .run → s.hostView = .running) ∧
    (s.status = .done → s.hostView = .normalEnd) ∧
    (s.status = .fault → s.hostView = .abnormalEnd exitStatus s.fault)
end

