-- ==== Sys2Proof/Laws/Decode.lean ====
section
/-! SUPPORT. The fields of an encoded byte read back, and a byte is put together from its fields. -/

namespace Sys2Proof

theorem bits_eq (b : Byte) (hi lo : Nat) :
    bits b hi lo = b.toNat / 2 ^ lo % 2 ^ (hi - lo + 1) := by
  simp [bits, Nat.and_two_pow_sub_one_eq_mod, Nat.shiftRight_eq_div_pow]

theorem u16le_toNat (lo hi : Byte) : (u16le lo hi).toNat = lo.toNat + 256 * hi.toNat := by
  have := lo.isLt
  have := hi.isLt
  simp only [u16le, BitVec.toNat_ofNat]
  omega

theorem u16le_lowByte_highByte (x : Word) : u16le (lowByte x) (highByte x) = x := by
  have := x.isLt
  apply BitVec.eq_of_toNat_eq
  simp only [u16le_toNat, lowByte, highByte, BitVec.toNat_ofNat]
  omega

theorem lowByte_u16le (lo hi : Byte) : lowByte (u16le lo hi) = lo := by
  have := lo.isLt
  have := hi.isLt
  apply BitVec.eq_of_toNat_eq
  simp only [lowByte, u16le_toNat, BitVec.toNat_ofNat]
  omega

theorem highByte_u16le (lo hi : Byte) : highByte (u16le lo hi) = hi := by
  have := lo.isLt
  have := hi.isLt
  apply BitVec.eq_of_toNat_eq
  simp only [highByte, u16le_toNat, BitVec.toNat_ofNat]
  omega

theorem modField_modRM : ∀ (mod : Fin 4) (reg rm : Fin 8), modField (modRM mod.val reg rm) =
    match mod with
    | 0 => .memory
    | 1 => .memoryDisp8
    | 2 => .memoryDisp16
    | 3 => .registerDirect := by decide

theorem regField_modRM : ∀ (mod : Fin 4) (reg rm : Fin 8),
    regField (modRM mod.val reg rm) = reg := by decide

theorem rmField_modRM : ∀ (mod : Fin 4) (reg rm : Fin 8),
    rmField (modRM mod.val reg rm) = rm := by decide

theorem classify_immOpcode : ∀ (w : Fin 2) (reg : RegIndex),
    classify (immOpcode w.val reg) = .immMov := by decide

theorem immWidthBit_immOpcode : ∀ (w : Fin 2) (reg : RegIndex),
    immWidthBit (immOpcode w.val reg) = (w == 1) := by decide

theorem immRegField_immOpcode : ∀ (w : Fin 2) (reg : RegIndex),
    immRegField (immOpcode w.val reg) = reg := by decide

/-- The number that each addressing mode is encoded as. -/
def AddrMode.code : AddrMode → Nat
  | .memory => 0
  | .memoryDisp8 => 1
  | .memoryDisp16 => 2
  | .registerDirect => 3

/-- A mod/reg/rm byte is made of its three fields and nothing else. -/
theorem modRM_fields : ∀ b : Byte,
    modRM (modField b).code (regField b) (rmField b) = b := by decide

/-- The register/memory opcodes are these four, each with its direction and width bit. -/
theorem classify_rmMov : ∀ b : Byte, classify b = .rmMov →
    (b = 0x88 ∧ dirBit b = false ∧ widthBit b = false) ∨
    (b = 0x89 ∧ dirBit b = false ∧ widthBit b = true) ∨
    (b = 0x8A ∧ dirBit b = true ∧ widthBit b = false) ∨
    (b = 0x8B ∧ dirBit b = true ∧ widthBit b = true) := by decide

/-- An immediate opcode is made of its width bit and its register. -/
theorem immOpcode_fields : ∀ b : Byte, classify b = .immMov →
    immOpcode (immWidthBit b).toNat (immRegField b) = b := by decide

/-- The encoding of an instruction has its length. -/
theorem length_encode (i : Instr) : (encode i).length = i.length := by cases i <;> rfl

/-- Four bytes settle every answer of the decoder (R60): it says the same of them as of all the bytes,
but for the bytes that are left. -/
theorem decode_take_four (bs : List Byte) : decode (bs.take 4) =
    match decode bs with
    | .ok i rest => .ok i (rest.take (4 - i.length))
    | .unsupported b => .unsupported b
    | .truncated k => .truncated k := by
  rcases bs with _ | ⟨b0, _ | ⟨b1, more⟩⟩
  · rfl
  · simp only [List.take, decode]
    cases classify b0 <;> simp [decodeIMM]
    cases immWidthBit b0 <;> simp
  · cases hc : classify b0
    · simp only [List.take, decode, hc]
      rcases more with _ | ⟨b2, _ | ⟨b3, more⟩⟩ <;> simp only [List.take, decodeRM] <;>
        cases modField b1 <;> simp <;> (try split) <;> (try simp) <;>
        (cases dirBit b0 <;> cases widthBit b0 <;>
          simp [rowMod11, rowMod00, rowDirect, rowMod01, rowMod10, Instr.length])
    · simp only [List.take, decode, hc]
      rcases more with _ | ⟨b2, _ | ⟨b3, more⟩⟩ <;> simp only [List.take, decodeIMM] <;>
        cases immWidthBit b0 <;> simp [Instr.length]
    · simp [decode, hc]

end Sys2Proof
end

