-- ==== Sys2Proof/Laws/Memory.lean ====
section
/-! SUPPORT. The stream: its canonical form, that every operation keeps it, and what a read and a window
of a stream in that form give. -/

namespace Sys2Proof.Machine

theorem Memory.length_bytes (m : Memory) : m.bytes.length = m.length := by
  simp [Memory.bytes]

theorem Memory.map_fst_ofBytes (bs : List Byte) :
    (Memory.ofBytes bs).map Prod.fst = List.range bs.length := by
  simp [Memory.ofBytes, List.map_fst_zip]

theorem Memory.bytes_ofBytes (bs : List Byte) : (Memory.ofBytes bs).bytes = bs := by
  simp [Memory.ofBytes, Memory.bytes, List.map_snd_zip]

theorem Memory.length_ofBytes (bs : List Byte) : (Memory.ofBytes bs).length = bs.length := by
  simp [Memory.ofBytes]

/-- The environment's stream of any bytes is in canonical form. -/
theorem Memory.wf_ofBytes (bs : List Byte) : (Memory.ofBytes bs).wf = true := by
  simp [Memory.wf, Memory.map_fst_ofBytes, Memory.length_ofBytes]

/-- Placing bytes keeps the canonical form. -/
theorem Memory.wf_load (m : Memory) (a : Nat) (bs : List Byte) : (m.load a bs).wf = true :=
  Memory.wf_ofBytes _

/-- The empty stream, which reset lists, is in canonical form. -/
theorem Memory.wf_nil : Memory.wf [] = true := rfl

/-- A stream in canonical form is determined by its bytes. -/
theorem Memory.eq_ofBytes_of_wf {m : Memory} (h : m.wf = true) : m = Memory.ofBytes m.bytes := by
  have hk : m.map Prod.fst = List.range m.length := by simpa [Memory.wf] using h
  rw [Memory.ofBytes, Memory.length_bytes, ← hk, Memory.bytes, List.zip_map']
  exact (List.map_id m).symm

theorem Memory.lookup_zip_range' (bs : List Byte) (start a : Nat) :
    List.lookup (start + a) ((List.range' start bs.length).zip bs) = bs[a]? := by
  induction bs generalizing start a with
  | nil => simp
  | cons b bs ih =>
    cases a with
    | zero => simp [List.range']
    | succ a =>
      have hne : (start + (a + 1) == start) = false := by simp
      have hs := ih (start + 1) a
      rw [show start + 1 + a = start + (a + 1) by omega] at hs
      simp only [List.length_cons, List.range', List.zip_cons_cons, List.lookup, hne,
        List.getElem?_cons_succ]
      exact hs

theorem Memory.byteAt_ofBytes (bs : List Byte) (a : Nat) :
    (Memory.ofBytes bs).byteAt a = bs[a]? := by
  have h := Memory.lookup_zip_range' bs 0 a
  simpa [Memory.byteAt, Memory.ofBytes, List.range_eq_range'] using h

theorem Memory.byteAt_of_wf {m : Memory} (h : m.wf = true) (a : Nat) :
    m.byteAt a = m.bytes[a]? := by
  rw [Memory.eq_ofBytes_of_wf h, Memory.byteAt_ofBytes, Memory.bytes_ofBytes]

/-- The window of a canonical stream is the next bytes of it, as far as they exist. -/
theorem Memory.window_of_wf {m : Memory} (h : m.wf = true) (a k : Nat) :
    m.window a k = (m.bytes.drop a).take k := by
  induction k generalizing a with
  | zero => simp [Memory.window]
  | succ k ih =>
    simp only [Memory.window, Memory.byteAt_of_wf h]
    rcases hb : m.bytes[a]? with _ | b
    · have := List.getElem?_eq_none_iff.mp hb
      simp [List.drop_eq_nil_of_le this]
    · obtain ⟨hlt, rfl⟩ := List.getElem?_eq_some_iff.mp hb
      simp only [ih]
      rw [List.drop_eq_getElem_cons hlt, List.take_succ_cons]

theorem Memory.bytes_load (m : Memory) (a : Nat) (bs : List Byte) :
    (m.load a bs).bytes =
      m.bytes.take a ++ List.replicate (a - m.length) 0 ++ bs ++ m.bytes.drop (a + bs.length) :=
  Memory.bytes_ofBytes _

end Sys2Proof.Machine
end

