-- ==== Sys2Proof/Laws/Operands.lean ====
section
/-! SUPPORT. The signed readings of a field (00_scope.md R8): equal to Lean's own two's-complement reading,
and the spec's formulas on two bytes equal to the readings of the joined field. -/

namespace Sys2Proof.Machine

theorem s8_toInt (b : Byte) : s8 b = b.toInt := by
  simp only [s8, BitVec.toInt]
  split <;> split <;> omega

theorem s16_toInt (x : Word) : s16 x = x.toInt := by
  simp only [s16, BitVec.toInt]
  split <;> split <;> omega

theorem s8_range (b : Byte) : -128 ≤ s8 b ∧ s8 b ≤ 127 := by
  have := b.isLt
  unfold s8
  split <;> omega

theorem s16_range (x : Word) : -32768 ≤ s16 x ∧ s16 x ≤ 32767 := by
  have := x.isLt
  unfold s16
  split <;> omega

/-- Joining two bytes, the lower index in the low half, is appending them (R42). -/
theorem u16le_append (lo hi : Byte) : u16le lo hi = hi ++ lo := by
  apply BitVec.eq_of_toNat_eq
  rw [u16le_toNat, BitVec.toNat_append, Nat.shiftLeft_eq, Nat.mul_comm hi.toNat,
    ← Nat.two_pow_add_eq_or_of_lt lo.isLt]
  omega

theorem u16leNat_eq (lo hi : Byte) : u16leNat lo hi = (u16le lo hi).toNat :=
  (u16le_toNat lo hi).symm

theorem s16leInt_eq (lo hi : Byte) : s16leInt lo hi = s16 (u16le lo hi) := by
  simp [s16, s16leInt, u16leNat_eq]

end Sys2Proof.Machine
end

