-- ==== Sys2Proof/Laws/PerInstr.lean ====
section
/-! SUPPORT. Two facts about every instruction as syntax, one lemma per constructor. -/

namespace Sys2Proof.Laws

/-- The encoding has as many bytes as the table's row says (R66, R75). -/
def EncodedLength.Statement (i : Instr) : Prop := (encode i).length = i.length

namespace EncodedLength

theorem movRm8R8Mod11 (reg rm : RegIndex) : Statement (.movRm8R8Mod11 reg rm) := rfl
theorem movRm8R8Mod00 (reg : RegIndex) (rm : EaRow) : Statement (.movRm8R8Mod00 reg rm) := rfl
theorem movRm8R8Direct (reg : RegIndex) (addr : Word) : Statement (.movRm8R8Direct reg addr) := rfl
theorem movRm8R8Mod01 (reg : RegIndex) (rm : EaRow) (disp : Byte) : Statement (.movRm8R8Mod01 reg rm disp) := rfl
theorem movRm8R8Mod10 (reg : RegIndex) (rm : EaRow) (disp : Word) : Statement (.movRm8R8Mod10 reg rm disp) := rfl
theorem movRm16R16Mod11 (reg rm : RegIndex) : Statement (.movRm16R16Mod11 reg rm) := rfl
theorem movRm16R16Mod00 (reg : RegIndex) (rm : EaRow) : Statement (.movRm16R16Mod00 reg rm) := rfl
theorem movRm16R16Direct (reg : RegIndex) (addr : Word) : Statement (.movRm16R16Direct reg addr) := rfl
theorem movRm16R16Mod01 (reg : RegIndex) (rm : EaRow) (disp : Byte) : Statement (.movRm16R16Mod01 reg rm disp) := rfl
theorem movRm16R16Mod10 (reg : RegIndex) (rm : EaRow) (disp : Word) : Statement (.movRm16R16Mod10 reg rm disp) := rfl
theorem movR8Rm8Mod11 (reg rm : RegIndex) : Statement (.movR8Rm8Mod11 reg rm) := rfl
theorem movR8Rm8Mod00 (reg : RegIndex) (rm : EaRow) : Statement (.movR8Rm8Mod00 reg rm) := rfl
theorem movR8Rm8Direct (reg : RegIndex) (addr : Word) : Statement (.movR8Rm8Direct reg addr) := rfl
theorem movR8Rm8Mod01 (reg : RegIndex) (rm : EaRow) (disp : Byte) : Statement (.movR8Rm8Mod01 reg rm disp) := rfl
theorem movR8Rm8Mod10 (reg : RegIndex) (rm : EaRow) (disp : Word) : Statement (.movR8Rm8Mod10 reg rm disp) := rfl
theorem movR16Rm16Mod11 (reg rm : RegIndex) : Statement (.movR16Rm16Mod11 reg rm) := rfl
theorem movR16Rm16Mod00 (reg : RegIndex) (rm : EaRow) : Statement (.movR16Rm16Mod00 reg rm) := rfl
theorem movR16Rm16Direct (reg : RegIndex) (addr : Word) : Statement (.movR16Rm16Direct reg addr) := rfl
theorem movR16Rm16Mod01 (reg : RegIndex) (rm : EaRow) (disp : Byte) : Statement (.movR16Rm16Mod01 reg rm disp) := rfl
theorem movR16Rm16Mod10 (reg : RegIndex) (rm : EaRow) (disp : Word) : Statement (.movR16Rm16Mod10 reg rm disp) := rfl
theorem movR8Imm8 (reg : RegIndex) (imm : Byte) : Statement (.movR8Imm8 reg imm) := rfl
theorem movR16Imm16 (reg : RegIndex) (imm : Word) : Statement (.movR16Imm16 reg imm) := rfl

end EncodedLength

/-- The first byte of an encoding is of the class that the instruction's format has (R60, R90). -/
def EncodedClass.Statement (i : Instr) : Prop :=
  ((encode i).head?).map classify = some (if i.row < 20 then OpClass.rmMov else OpClass.immMov)

namespace EncodedClass

theorem movRm8R8Mod11 (reg rm : RegIndex) : Statement (.movRm8R8Mod11 reg rm) := rfl
theorem movRm8R8Mod00 (reg : RegIndex) (rm : EaRow) : Statement (.movRm8R8Mod00 reg rm) := rfl
theorem movRm8R8Direct (reg : RegIndex) (addr : Word) : Statement (.movRm8R8Direct reg addr) := rfl
theorem movRm8R8Mod01 (reg : RegIndex) (rm : EaRow) (disp : Byte) : Statement (.movRm8R8Mod01 reg rm disp) := rfl
theorem movRm8R8Mod10 (reg : RegIndex) (rm : EaRow) (disp : Word) : Statement (.movRm8R8Mod10 reg rm disp) := rfl
theorem movRm16R16Mod11 (reg rm : RegIndex) : Statement (.movRm16R16Mod11 reg rm) := rfl
theorem movRm16R16Mod00 (reg : RegIndex) (rm : EaRow) : Statement (.movRm16R16Mod00 reg rm) := rfl
theorem movRm16R16Direct (reg : RegIndex) (addr : Word) : Statement (.movRm16R16Direct reg addr) := rfl
theorem movRm16R16Mod01 (reg : RegIndex) (rm : EaRow) (disp : Byte) : Statement (.movRm16R16Mod01 reg rm disp) := rfl
theorem movRm16R16Mod10 (reg : RegIndex) (rm : EaRow) (disp : Word) : Statement (.movRm16R16Mod10 reg rm disp) := rfl
theorem movR8Rm8Mod11 (reg rm : RegIndex) : Statement (.movR8Rm8Mod11 reg rm) := rfl
theorem movR8Rm8Mod00 (reg : RegIndex) (rm : EaRow) : Statement (.movR8Rm8Mod00 reg rm) := rfl
theorem movR8Rm8Direct (reg : RegIndex) (addr : Word) : Statement (.movR8Rm8Direct reg addr) := rfl
theorem movR8Rm8Mod01 (reg : RegIndex) (rm : EaRow) (disp : Byte) : Statement (.movR8Rm8Mod01 reg rm disp) := rfl
theorem movR8Rm8Mod10 (reg : RegIndex) (rm : EaRow) (disp : Word) : Statement (.movR8Rm8Mod10 reg rm disp) := rfl
theorem movR16Rm16Mod11 (reg rm : RegIndex) : Statement (.movR16Rm16Mod11 reg rm) := rfl
theorem movR16Rm16Mod00 (reg : RegIndex) (rm : EaRow) : Statement (.movR16Rm16Mod00 reg rm) := rfl
theorem movR16Rm16Direct (reg : RegIndex) (addr : Word) : Statement (.movR16Rm16Direct reg addr) := rfl
theorem movR16Rm16Mod01 (reg : RegIndex) (rm : EaRow) (disp : Byte) : Statement (.movR16Rm16Mod01 reg rm disp) := rfl
theorem movR16Rm16Mod10 (reg : RegIndex) (rm : EaRow) (disp : Word) : Statement (.movR16Rm16Mod10 reg rm disp) := rfl
theorem movR8Imm8 (reg : RegIndex) (imm : Byte) : Statement (.movR8Imm8 reg imm) :=
  congrArg some (classify_immOpcode 0 reg)
theorem movR16Imm16 (reg : RegIndex) (imm : Word) : Statement (.movR16Imm16 reg imm) :=
  congrArg some (classify_immOpcode 1 reg)

end EncodedClass

end Sys2Proof.Laws
end

