-- ==== Sys2Proof/Laws/State.lean ====
section
/-! SUPPORT. One lemma per field per update of the state, each true by rfl, so that no proof unfolds a
record update. -/

namespace Sys2Proof.Machine

variable (s : State) (l : Line) (k : Nat) (f : FaultRecord) (b : Byte) (bs : List Byte)
variable (S : Memory) (name : String)

@[simp] theorem State.emit_stream : (s.emit l).stream = s.stream := rfl
@[simp] theorem State.emit_inputName : (s.emit l).inputName = s.inputName := rfl
@[simp] theorem State.emit_cursor : (s.emit l).cursor = s.cursor := rfl
@[simp] theorem State.emit_status : (s.emit l).status = s.status := rfl
@[simp] theorem State.emit_fault : (s.emit l).fault = s.fault := rfl
@[simp] theorem State.emit_sink : (s.emit l).sink = s.sink ++ [l] := rfl

@[simp] theorem State.advance_stream : (s.advance k).stream = s.stream := rfl
@[simp] theorem State.advance_inputName : (s.advance k).inputName = s.inputName := rfl
@[simp] theorem State.advance_cursor : (s.advance k).cursor = s.cursor + k := rfl
@[simp] theorem State.advance_status : (s.advance k).status = s.status := rfl
@[simp] theorem State.advance_fault : (s.advance k).fault = s.fault := rfl
@[simp] theorem State.advance_sink : (s.advance k).sink = s.sink := rfl

@[simp] theorem State.takeFault_stream : (s.takeFault f).stream = s.stream := rfl
@[simp] theorem State.takeFault_inputName : (s.takeFault f).inputName = s.inputName := rfl
@[simp] theorem State.takeFault_cursor : (s.takeFault f).cursor = s.cursor := rfl
@[simp] theorem State.takeFault_status : (s.takeFault f).status = .fault := rfl
@[simp] theorem State.takeFault_fault : (s.takeFault f).fault = some f := rfl
@[simp] theorem State.takeFault_sink : (s.takeFault f).sink = s.sink := rfl

theorem State.takeUnsupported_eq :
    s.takeUnsupported b = s.takeFault (.unsupportedOpcode b s.cursor) := rfl
theorem State.takeTruncated_eq :
    s.takeTruncated k = s.takeFault (.truncatedInstruction s.cursor k (s.n - s.cursor)) := rfl

@[simp] theorem State.finish_stream : s.finish.stream = s.stream := rfl
@[simp] theorem State.finish_inputName : s.finish.inputName = s.inputName := rfl
@[simp] theorem State.finish_cursor : s.finish.cursor = s.cursor := rfl
@[simp] theorem State.finish_status : s.finish.status = .done := rfl
@[simp] theorem State.finish_fault : s.finish.fault = s.fault := rfl
@[simp] theorem State.finish_sink : s.finish.sink = s.sink := rfl

@[simp] theorem State.loadAtCursor_stream :
    (s.loadAtCursor bs).stream = s.stream.load s.cursor bs := rfl
@[simp] theorem State.loadAtCursor_inputName : (s.loadAtCursor bs).inputName = s.inputName := rfl
@[simp] theorem State.loadAtCursor_cursor : (s.loadAtCursor bs).cursor = s.cursor := rfl
@[simp] theorem State.loadAtCursor_status : (s.loadAtCursor bs).status = .run := rfl
@[simp] theorem State.loadAtCursor_fault : (s.loadAtCursor bs).fault = none := rfl
@[simp] theorem State.loadAtCursor_sink : (s.loadAtCursor bs).sink = s.sink := rfl

@[simp] theorem State.start_stream : (State.start S name).stream = S := rfl
@[simp] theorem State.start_inputName : (State.start S name).inputName = name := rfl
@[simp] theorem State.start_cursor : (State.start S name).cursor = 0 := rfl
@[simp] theorem State.start_status : (State.start S name).status = .run := rfl
@[simp] theorem State.start_fault : (State.start S name).fault = none := rfl
@[simp] theorem State.start_sink : (State.start S name).sink = preamble name := rfl

/-- Everything `retire` can do: it always answers this next state. -/
theorem retire_eq (m : Move) :
    retire m k s = .next { s with sink := s.sink ++ [lineText m], cursor := s.cursor + k } := rfl

end Sys2Proof.Machine
end

