-- ==== Sys2Proof/Laws/Step.lean ====
section
/-! SUPPORT. What an instruction and a step can do, said once. -/

namespace Sys2Proof.Machine

/-- Every instruction retires one `Move` and the row's length, and nothing else. -/
theorem exec_retires (i : Instr) : ∃ m : Move, ∀ s : State, exec i s = retire m i.length s := by
  cases i <;> exact ⟨_, fun _ => rfl⟩

theorem length_bounds (i : Instr) : 2 ≤ i.length ∧ i.length ≤ 4 := by
  cases i <;> simp [Instr.length]

/-- What a step that answers a next state has done: the run went on, and it ended normally at the end of
the stream, or retired the instruction fetched, or took the fault of the fetch. -/
theorem step_next_cases {s t : State} (h : step s = .next t) :
    s.status = .run ∧
    ((s.cursor = s.n ∧ t = s.finish) ∨
     (s.cursor ≠ s.n ∧ ∃ i rest m, s.fetch = .ok i rest ∧ exec i s = .next t ∧
        t = (s.emit (lineText m)).advance i.length) ∨
     (s.cursor ≠ s.n ∧ ∃ b, s.fetch = .unsupported b ∧ t = s.takeUnsupported b) ∨
     (s.cursor ≠ s.n ∧ ∃ k, s.fetch = .truncated k ∧ t = s.takeTruncated k)) := by
  unfold step at h
  cases hs : s.status with
  | done => simp [hs] at h
  | fault => simp [hs] at h
  | run =>
    refine ⟨rfl, ?_⟩
    rw [hs] at h
    by_cases hc : s.cursor = s.n
    · simp only [hc, if_true] at h
      exact .inl ⟨hc, by cases h; rfl⟩
    · simp only [hc, if_false] at h
      cases hf : s.fetch with
      | ok i rest =>
        obtain ⟨m, hm⟩ := exec_retires i
        simp only [hf] at h
        refine .inr (.inl ⟨hc, i, rest, m, rfl, h, ?_⟩)
        rw [hm, retire] at h
        cases h; rfl
      | unsupported b =>
        simp only [hf] at h
        exact .inr (.inr (.inl ⟨hc, b, rfl, by cases h; rfl⟩))
      | truncated k =>
        simp only [hf] at h
        exact .inr (.inr (.inr ⟨hc, k, rfl, by cases h; rfl⟩))

/-- What the decoder is shown when the stream is in canonical form. -/
theorem fetch_of_wf {s : State} (h : s.stream.wf = true) :
    s.fetch = decode ((s.stream.bytes.drop s.cursor).take maxInstrBytes) := by
  rw [State.fetch, Memory.window_of_wf h]

/-- The host's run of the machine is `runSteps`. -/
theorem core_run (k : Nat) (s : Sys2Proof.core.State) :
    Sys2Proof.core.run k s = runSteps k s := by
  induction k generalizing s with
  | zero => rfl
  | succ k ih =>
    simp only [Host.Core.run, runSteps]
    cases h : Sys2Proof.core.step s with
    | next t => rw [show step s = .next t from h]; exact ih t
    | fault r => rw [show step s = .fault r from h]; rfl
    | refused r => rw [show step s = .refused r from h]; rfl

end Sys2Proof.Machine
end

