-- ==== Sys2Proof/Tests/Slice0.lean ====
section
/-! SUPPORT. The model's own tests. Every expected result is the spec's: words are written out from
30_encoding.md R61 to R65, lines and faults are from the tables of 95_test_vectors.md named beside them. A
`test_witness_…` theorem shows that the hypotheses of an obligation can all be met, one clause at a time
where it has several. -/

namespace Sys2Proof.Tests

open Sys2Proof.Machine

/-- The start of a run on the given bytes. -/
def onBytes (bs : List Byte) : State := State.start (Memory.ofBytes bs) "t"

/-- The last line and the cursor after one step. -/
def printed (s : State) : Option (Option Line × Nat) :=
  match step s with
  | .next t => some (t.sink.getLast?, t.cursor)
  | .fault _ => none
  | .refused _ => none

/-- The status, the fault record, the cursor and the number of lines after one step. -/
def ended (s : State) : Option (Status × Option FaultRecord × Nat × Nat) :=
  match step s with
  | .next t => some (t.status, t.fault, t.cursor, t.sink.length)
  | .fault _ => none
  | .refused _ => none

/-! Well-formedness: one ill-formed term for each check. -/

theorem test_wf_refuses_movRm8R8Mod00 : (Instr.movRm8R8Mod00 0 6).wf = false := by decide
theorem test_wf_refuses_movRm16R16Mod00 : (Instr.movRm16R16Mod00 0 6).wf = false := by decide
theorem test_wf_refuses_movR8Rm8Mod00 : (Instr.movR8Rm8Mod00 0 6).wf = false := by decide
theorem test_wf_refuses_movR16Rm16Mod00 : (Instr.movR16Rm16Mod00 0 6).wf = false := by decide
theorem test_wf_refuses_disp_high : (EAExpr.baseDisp 0 32768).wf = false := by decide
theorem test_wf_refuses_disp_low : (EAExpr.baseDisp 0 (-32769)).wf = false := by decide
theorem test_wf_refuses_address : (EAExpr.direct 65536).wf = false := by decide
theorem test_wf_refuses_imm8_high : immInRange .byte 128 = false := by decide
theorem test_wf_refuses_imm8_low : immInRange .byte (-129) = false := by decide
theorem test_wf_refuses_imm16_high : immInRange .word 32768 = false := by decide
theorem test_wf_refuses_imm16_low : immInRange .word (-32769) = false := by decide
theorem test_wf_refuses_mixed_widths :
    (Move.mk (.reg ⟨.byte, 0⟩) (.reg ⟨.word, 0⟩)).wf = false := by decide
theorem test_wf_refuses_two_memory_operands :
    (Move.mk (.mem (.direct 0)) (.mem (.direct 0))).wf = false := by decide
theorem test_wf_refuses_imm_to_memory :
    (Move.mk (.mem (.direct 0)) (.imm 0)).wf = false := by decide
theorem test_wf_refuses_imm_destination :
    (Move.mk (.imm 0) (.reg ⟨.byte, 0⟩)).wf = false := by decide
theorem test_memory_wf_refuses_gap : Memory.wf [(0, 1), (2, 1)] = false := by decide
theorem test_memory_wf_refuses_order : Memory.wf [(1, 1), (0, 1)] = false := by decide

/-! Decoding: one word of each row of the opcode table, written out bit by bit. -/

theorem test_decode_movRm8R8Mod11 :
    decode [0b10001000, 0b11001000] = .ok (.movRm8R8Mod11 1 0) [] := by decide
theorem test_decode_movRm8R8Mod00 :
    decode [0b10001000, 0b00001010] = .ok (.movRm8R8Mod00 1 2) [] := by decide
theorem test_decode_movRm8R8Direct :
    decode [0b10001000, 0b00000110, 0b00110100, 0b00010010] = .ok (.movRm8R8Direct 0 0x1234) [] := by decide
theorem test_decode_movRm8R8Mod01 :
    decode [0b10001000, 0b01000111, 0b11111011] = .ok (.movRm8R8Mod01 0 7 0xFB) [] := by decide
theorem test_decode_movRm8R8Mod10 :
    decode [0b10001000, 0b10000000, 0b00000001, 0b00000000] = .ok (.movRm8R8Mod10 0 0 0x0001) [] := by decide
theorem test_decode_movRm16R16Mod11 :
    decode [0b10001001, 0b11011001] = .ok (.movRm16R16Mod11 3 1) [] := by decide
theorem test_decode_movRm16R16Mod00 :
    decode [0b10001001, 0b00001001] = .ok (.movRm16R16Mod00 1 1) [] := by decide
theorem test_decode_movRm16R16Direct :
    decode [0b10001001, 0b00011110, 0b11101000, 0b00000011] = .ok (.movRm16R16Direct 3 0x03E8) [] := by decide
theorem test_decode_movRm16R16Mod01 :
    decode [0b10001001, 0b01000111, 0b01111111] = .ok (.movRm16R16Mod01 0 7 0x7F) [] := by decide
theorem test_decode_movRm16R16Mod10 :
    decode [0b10001001, 0b10001010, 0b00000000, 0b00000001] = .ok (.movRm16R16Mod10 1 2 0x0100) [] := by decide
theorem test_decode_movR8Rm8Mod11 :
    decode [0b10001010, 0b11011001] = .ok (.movR8Rm8Mod11 3 1) [] := by decide
theorem test_decode_movR8Rm8Mod00 :
    decode [0b10001010, 0b00000000] = .ok (.movR8Rm8Mod00 0 0) [] := by decide
theorem test_decode_movR8Rm8Direct :
    decode [0b10001010, 0b00000110, 0b00110100, 0b00010010] = .ok (.movR8Rm8Direct 0 0x1234) [] := by decide
theorem test_decode_movR8Rm8Mod01 :
    decode [0b10001010, 0b01100000, 0b00000100] = .ok (.movR8Rm8Mod01 4 0 0x04) [] := by decide
theorem test_decode_movR8Rm8Mod10 :
    decode [0b10001010, 0b10011100, 0b11010100, 0b11111110] = .ok (.movR8Rm8Mod10 3 4 0xFED4) [] := by decide
theorem test_decode_movR16Rm16Mod11 :
    decode [0b10001011, 0b11100101] = .ok (.movR16Rm16Mod11 4 5) [] := by decide
theorem test_decode_movR16Rm16Mod00 :
    decode [0b10001011, 0b00011011] = .ok (.movR16Rm16Mod00 3 3) [] := by decide
theorem test_decode_movR16Rm16Direct :
    decode [0b10001011, 0b00111110, 0b00001010, 0b00000000] = .ok (.movR16Rm16Direct 7 0x000A) [] := by decide
theorem test_decode_movR16Rm16Mod01 :
    decode [0b10001011, 0b01000110, 0b11111111] = .ok (.movR16Rm16Mod01 0 6 0xFF) [] := by decide
theorem test_decode_movR16Rm16Mod10 :
    decode [0b10001011, 0b10000000, 0b11111111, 0b01111111] = .ok (.movR16Rm16Mod10 0 0 0x7FFF) [] := by decide
theorem test_decode_movR8Imm8 :
    decode [0b10110001, 0b00001100] = .ok (.movR8Imm8 1 0x0C) [] := by decide
theorem test_decode_movR16Imm16 :
    decode [0b10111010, 0b10010100, 0b11110000] = .ok (.movR16Imm16 2 0xF094) [] := by decide

/-- The bytes after an instruction are left for the next (R45). -/
theorem test_decode_leaves_the_rest :
    decode [0x89, 0x18, 0xFE, 0xFF] = .ok (.movRm16R16Mod00 3 0) [0xFE, 0xFF] := by decide
theorem test_decode_unsupported : decode [0x8C, 0xC0] = .unsupported 0x8C := by decide
theorem test_decode_truncated : decode [0x8B, 0x80, 0x01] = .truncated 4 := by decide

/-! The table's own numbering of words (R75; log entry 5). -/

theorem test_table_word_16 : decodeTableWord 16 0x88C0 = some (.movRm8R8Mod11 0 0) := by decide
theorem test_table_word_excluded :
    decodeTableWord 16 0x8B06 = some (.movR16Rm16Direct 0 0) := by decide
theorem test_table_word_8 : decodeTableWord 8 0xB8 = some (.movR16Imm16 0 0) := by decide
theorem test_table_word_8_with_operands :
    decodeTableWord 24 0xF094BA = some (.movR16Imm16 2 0xF094) := by decide
theorem test_table_word_first_byte_lowest :
    decodeTableWord 16 0xC088 = some (.movRm8R8Mod11 0 0) := by decide
theorem test_table_word_none : decodeTableWord 16 0x0000 = none := by decide
theorem test_placed_word_runs_from_reset :
    step (State.reset.withFetchWord 16 0x8B80) =
      exec (.movR16Rm16Mod10 0 0 0) (State.reset.withFetchWord 16 0x8B80) := by rfl

/-! One step of each instruction: the line it prints and the cursor after it. -/

/-- V2. -/
theorem test_step_movRm8R8Mod11 :
    printed (onBytes [0x88, 0xE5]) = some (some "mov ch, ah", 2) := by decide
/-- PR2. -/
theorem test_step_movRm8R8Mod00 :
    printed (onBytes [0x88, 0x0A]) = some (some "mov [bp + si], cl", 2) := by decide
/-- V5. -/
theorem test_step_movRm8R8Direct :
    printed (onBytes [0x88, 0x06, 0x34, 0x12]) = some (some "mov [4660], al", 4) := by decide
/-- V4. -/
theorem test_step_movRm8R8Mod01 :
    printed (onBytes [0x88, 0x47, 0xFB]) = some (some "mov [bx - 5], al", 3) := by decide
/-- V3 under opcode 88. -/
theorem test_step_movRm8R8Mod10 :
    printed (onBytes [0x88, 0xB9, 0x34, 0x12]) = some (some "mov [bx + di + 4660], bh", 4) := by decide
/-- S1. -/
theorem test_step_movRm16R16Mod11 :
    printed (onBytes [0x89, 0xD9]) = some (some "mov cx, bx", 2) := by decide
/-- PR2. -/
theorem test_step_movRm16R16Mod00 :
    printed (onBytes [0x89, 0x09]) = some (some "mov [bx + di], cx", 2) := by decide
/-- V5. -/
theorem test_step_movRm16R16Direct :
    printed (onBytes [0x89, 0x1E, 0xE8, 0x03]) = some (some "mov [1000], bx", 4) := by decide
/-- V9. -/
theorem test_step_movRm16R16Mod01 :
    printed (onBytes [0x89, 0x47, 0x7F]) = some (some "mov [bx + 127], ax", 3) := by decide
/-- S4a. -/
theorem test_step_movRm16R16Mod10 :
    printed (onBytes [0x89, 0x8A, 0x00, 0x01]) = some (some "mov [bp + si + 256], cx", 4) := by decide
/-- V2. -/
theorem test_step_movR8Rm8Mod11 :
    printed (onBytes [0x8A, 0xF4]) = some (some "mov dh, ah", 2) := by decide
/-- S2. -/
theorem test_step_movR8Rm8Mod00 :
    printed (onBytes [0x8A, 0x00]) = some (some "mov al, [bx + si]", 2) := by decide
/-- V5. -/
theorem test_step_movR8Rm8Direct :
    printed (onBytes [0x8A, 0x06, 0x34, 0x12]) = some (some "mov al, [4660]", 4) := by decide
/-- PR2. -/
theorem test_step_movR8Rm8Mod01 :
    printed (onBytes [0x8A, 0x60, 0x04]) = some (some "mov ah, [bx + si + 4]", 3) := by decide
/-- V4. -/
theorem test_step_movR8Rm8Mod10 :
    printed (onBytes [0x8A, 0x9C, 0xD4, 0xFE]) = some (some "mov bl, [si - 300]", 4) := by decide
/-- V2. -/
theorem test_step_movR16Rm16Mod11 :
    printed (onBytes [0x8B, 0xE5]) = some (some "mov sp, bp", 2) := by decide
/-- PR2. -/
theorem test_step_movR16Rm16Mod00 :
    printed (onBytes [0x8B, 0x1B]) = some (some "mov bx, [bp + di]", 2) := by decide
/-- V5. -/
theorem test_step_movR16Rm16Direct :
    printed (onBytes [0x8B, 0x06, 0x00, 0x80]) = some (some "mov ax, [32768]", 4) := by decide
/-- V4. -/
theorem test_step_movR16Rm16Mod01 :
    printed (onBytes [0x8B, 0x46, 0x00]) = some (some "mov ax, [bp]", 3) := by decide
/-- V4. -/
theorem test_step_movR16Rm16Mod10 :
    printed (onBytes [0x8B, 0x80, 0x00, 0x80]) = some (some "mov ax, [bx + si - 32768]", 4) := by decide
/-- V6. -/
theorem test_step_movR8Imm8 :
    printed (onBytes [0xB0, 0x80]) = some (some "mov al, -128", 2) := by decide
/-- V6. -/
theorem test_step_movR16Imm16 :
    printed (onBytes [0xB8, 0x00, 0x0C]) = some (some "mov ax, 3072", 3) := by decide

/-! Faults and the end of a run. -/

/-- S5. -/
theorem test_fault_zero :
    ended (onBytes [0x00]) = some (.fault, some (.unsupportedOpcode 0x00 0), 0, 2) := by decide
/-- V1. -/
theorem test_fault_below_rm :
    ended (onBytes [0x87, 0xC0]) = some (.fault, some (.unsupportedOpcode 0x87 0), 0, 2) := by decide
/-- V1. -/
theorem test_fault_above_rm :
    ended (onBytes [0x8C, 0xC0]) = some (.fault, some (.unsupportedOpcode 0x8C 0), 0, 2) := by decide
/-- V1. -/
theorem test_fault_below_imm :
    ended (onBytes [0xAF]) = some (.fault, some (.unsupportedOpcode 0xAF 0), 0, 2) := by decide
/-- V1. -/
theorem test_fault_above_imm :
    ended (onBytes [0xC0]) = some (.fault, some (.unsupportedOpcode 0xC0 0), 0, 2) := by decide
/-- V7. -/
theorem test_fault_rm_byte :
    ended (onBytes [0x88]) = some (.fault, some (.truncatedInstruction 0 2 1), 0, 2) := by decide
/-- V7. -/
theorem test_fault_disp8 :
    ended (onBytes [0x8B, 0x40]) = some (.fault, some (.truncatedInstruction 0 3 2), 0, 2) := by decide
/-- V7. -/
theorem test_fault_disp16 :
    ended (onBytes [0x8B, 0x80, 0x01]) = some (.fault, some (.truncatedInstruction 0 4 3), 0, 2) := by decide
/-- V7. -/
theorem test_fault_address :
    ended (onBytes [0x8B, 0x06]) = some (.fault, some (.truncatedInstruction 0 4 2), 0, 2) := by decide
/-- V7. -/
theorem test_fault_imm8 :
    ended (onBytes [0xB7]) = some (.fault, some (.truncatedInstruction 0 2 1), 0, 2) := by decide
/-- V7. -/
theorem test_fault_imm16 :
    ended (onBytes [0xB8]) = some (.fault, some (.truncatedInstruction 0 3 1), 0, 2) := by decide
/-- V7. -/
theorem test_fault_imm16_high :
    ended (onBytes [0xBF, 0xFF]) = some (.fault, some (.truncatedInstruction 0 3 2), 0, 2) := by decide
/-- V7, at a cursor that is not zero. -/
theorem test_fault_at_a_later_cursor :
    ended { onBytes [0xB1, 0x0C, 0xB8, 0x34] with cursor := 2 } =
      some (.fault, some (.truncatedInstruction 2 3 2), 2, 2) := by decide
/-- PR5. -/
theorem test_empty_stream : ended (onBytes []) = some (.done, none, 0, 2) := by decide
theorem test_no_step_after_done :
    step { onBytes [] with status := .done } = .fault .runIsDone := by rfl
theorem test_no_step_after_fault :
    step { onBytes [0x89, 0xD9] with status := .fault } = .fault .runIsFaulted := by rfl
/-- R163. -/
theorem test_preamble : (onBytes []).sink = ["; t disassembly:", "bits 16"] := by decide

/-! V8: the formatter alone. -/

theorem test_text_magnitude :
    operandText (.mem (.baseDisp 7 (-32768))) = "[bx - 32768]" := by decide
theorem test_text_address : operandText (.mem (.direct 65535)) = "[65535]" := by decide
theorem test_text_zero_address : operandText (.mem (.direct 0)) = "[0]" := by decide
theorem test_text_negative : operandText (.imm (-32768)) = "-32768" := by decide
theorem test_dec : [0, 7, 10, 65535].map dec = ["0", "7", "10", "65535"] := by decide

/-! Witnesses. -/

theorem ready_onBytes (bs : List Byte) : (onBytes bs).Ready bs where
  running := rfl
  streamWf := Memory.wf_ofBytes bs
  bytesHere k b h := by
    show (Memory.ofBytes bs).byteAt (0 + k) = some b
    rw [Memory.byteAt_ofBytes, Nat.zero_add, h]

theorem readyToEnd_onBytes (bs : List Byte) : (onBytes bs).ReadyToEnd bs where
  running := rfl
  streamWf := Memory.wf_ofBytes bs
  cursorInStream := Nat.zero_le _
  bytesToEnd := by
    show (Memory.ofBytes bs).bytes.drop 0 = bs
    rw [Memory.bytes_ofBytes, List.drop_zero]

theorem inv_onBytes (bs : List Byte) : (onBytes bs).Inv where
  streamWf := Memory.wf_ofBytes bs
  cursorInStream := Nat.zero_le _
  linesSoFar := ⟨[], .start, (List.append_nil _).symm⟩
  runNoFault _ := rfl
  doneAtEnd h := nomatch h
  faultIsDecodes h := nomatch h

theorem test_witness_ClassifyByMaskAndPattern :
    classify 0x88 = .rmMov ∧ classify 0x8B = .rmMov ∧
    classify 0xB0 = .immMov ∧ classify 0xBF = .immMov := by decide

theorem test_witness_FieldExtraction : classify 0x8A = .rmMov := by decide

theorem test_witness_ConsumedIsTheLengthFunction :
    decode [0x8B, 0x46, 0xFF] = .ok (.movR16Rm16Mod01 0 6 0xFF) [] ∧
    (∃ t, exec (.movR16Rm16Mod01 0 6 0xFF) (onBytes []) = .next t) ∧
    (∃ m text k, decodeAt (Memory.ofBytes [0x8B, 0x46, 0xFF]) 0 = .ok m text k) ∧
    classify 0x8C = .unsupported := ⟨by decide, ⟨_, rfl⟩, ⟨_, _, _, rfl⟩, by decide⟩

theorem test_witness_DecodeOfEncode :
    (Instr.movRm8R8Mod00 7 7).wf = true ∧ (Instr.movRm8R8Mod00 0 5).wf = true ∧
    (Instr.movR16Rm16Direct 7 0xFFFF).wf = true := by decide

theorem test_witness_EncodeOfDecode :
    decode [0x8B, 0x06, 0xFF, 0xFF, 0x00] = .ok (.movR16Rm16Direct 0 0xFFFF) [0x00] := by decide

theorem test_witness_OpcodeTableRowsAreTheDecoders :
    decode [0x8B, 0x3F, 0, 0] = .ok (.movR16Rm16Mod00 7 7) [0, 0] := by decide

theorem test_witness_RegisterDirectBytes :
    ((onBytes [0x88, 0xC0]).Ready [0x88, 0xC0] ∧ classify 0x88 = .rmMov ∧ bits 0xC0 7 6 = 0b11) ∧
    ((onBytes [0x8B, 0xFF]).Ready [0x8B, 0xFF] ∧ classify 0x8B = .rmMov ∧ bits 0xFF 7 6 = 0b11) :=
  ⟨⟨ready_onBytes _, by decide, by decide⟩, ⟨ready_onBytes _, by decide, by decide⟩⟩

theorem test_witness_MemoryWithoutDisplacementBytes :
    ((onBytes [0x88, 0x05]).Ready [0x88, 0x05] ∧ classify 0x88 = .rmMov ∧ bits 0x05 7 6 = 0b00 ∧
      bits 0x05 2 0 ≠ 0b110) ∧
    ((onBytes [0x8B, 0x3F]).Ready [0x8B, 0x3F] ∧ classify 0x8B = .rmMov ∧ bits 0x3F 7 6 = 0b00 ∧
      bits 0x3F 2 0 ≠ 0b110) :=
  ⟨⟨ready_onBytes _, by decide, by decide, by decide⟩,
   ⟨ready_onBytes _, by decide, by decide, by decide⟩⟩

theorem test_witness_DirectAddressBytes :
    ((onBytes [0x88, 0x06, 0, 0]).Ready [0x88, 0x06, 0, 0] ∧ classify 0x88 = .rmMov ∧
      bits 0x06 7 6 = 0b00 ∧ bits 0x06 2 0 = 0b110) ∧
    ((onBytes [0x8B, 0x3E, 0xFF, 0xFF]).Ready [0x8B, 0x3E, 0xFF, 0xFF] ∧ classify 0x8B = .rmMov ∧
      bits 0x3E 7 6 = 0b00 ∧ bits 0x3E 2 0 = 0b110) :=
  ⟨⟨ready_onBytes _, by decide, by decide, by decide⟩,
   ⟨ready_onBytes _, by decide, by decide, by decide⟩⟩

theorem test_witness_Displacement8Bytes :
    ((onBytes [0x88, 0x40, 0x00]).Ready [0x88, 0x40, 0x00] ∧ classify 0x88 = .rmMov ∧
      bits 0x40 7 6 = 0b01) ∧
    ((onBytes [0x8B, 0x7F, 0xFF]).Ready [0x8B, 0x7F, 0xFF] ∧ classify 0x8B = .rmMov ∧
      bits 0x7F 7 6 = 0b01) :=
  ⟨⟨ready_onBytes _, by decide, by decide⟩, ⟨ready_onBytes _, by decide, by decide⟩⟩

theorem test_witness_Displacement16Bytes :
    ((onBytes [0x88, 0x80, 0, 0x80]).Ready [0x88, 0x80, 0, 0x80] ∧ classify 0x88 = .rmMov ∧
      bits 0x80 7 6 = 0b10) ∧
    ((onBytes [0x8B, 0xBF, 0xFF, 0x7F]).Ready [0x8B, 0xBF, 0xFF, 0x7F] ∧ classify 0x8B = .rmMov ∧
      bits 0xBF 7 6 = 0b10) :=
  ⟨⟨ready_onBytes _, by decide, by decide⟩, ⟨ready_onBytes _, by decide, by decide⟩⟩

theorem test_witness_ByteImmediateBytes :
    ((onBytes [0xB0, 0x80]).Ready [0xB0, 0x80] ∧ classify 0xB0 = .immMov ∧ bits 0xB0 3 3 = 0) ∧
    ((onBytes [0xB7, 0x7F]).Ready [0xB7, 0x7F] ∧ classify 0xB7 = .immMov ∧ bits 0xB7 3 3 = 0) :=
  ⟨⟨ready_onBytes _, by decide, by decide⟩, ⟨ready_onBytes _, by decide, by decide⟩⟩

theorem test_witness_WordImmediateBytes :
    ((onBytes [0xB8, 0, 0x80]).Ready [0xB8, 0, 0x80] ∧ classify 0xB8 = .immMov ∧
      bits 0xB8 3 3 = 1) ∧
    ((onBytes [0xBF, 0xFF, 0x7F]).Ready [0xBF, 0xFF, 0x7F] ∧ classify 0xBF = .immMov ∧
      bits 0xBF 3 3 = 1) :=
  ⟨⟨ready_onBytes _, by decide, by decide⟩, ⟨ready_onBytes _, by decide, by decide⟩⟩

theorem test_witness_InstructionFrame :
    ∃ t, exec (.movRm16R16Mod10 1 2 0x0100) (onBytes []) = .next t := ⟨_, rfl⟩

theorem test_witness_StepRunsTheFetchedInstruction :
    (onBytes [0x89, 0xD9]).status = .run ∧ (onBytes [0x89, 0xD9]).cursor ≠ (onBytes [0x89, 0xD9]).n ∧
    decode ((onBytes [0x89, 0xD9]).stream.window 0 maxInstrBytes) =
      .ok (.movRm16R16Mod11 3 1) [] := by decide

theorem test_witness_StepRunsTheEncodedInstruction :
    (Instr.movR16Imm16 7 0xFFFF).wf = true ∧
    (onBytes (encode (.movR16Imm16 7 0xFFFF))).Ready (encode (.movR16Imm16 7 0xFFFF)) :=
  ⟨by decide, ready_onBytes _⟩

theorem test_witness_PlacedWordRunsNext :
    decodeTableWord 16 0x8BFF = some (.movR16Rm16Mod11 7 7) := by decide

theorem test_witness_DisplacementSuffix :
    0 < s16 0x0001 ∧ 0 < s16 0x7FFF ∧ s16 0xFFFF < 0 ∧ s16 0x8000 < 0 := by decide

theorem test_witness_DirectionFixesTheOrder :
    (classify 0x88 = .rmMov ∧ decode [0x88, 0xC0] = .ok (.movRm8R8Mod11 0 0) []) ∧
    (classify 0x8B = .rmMov ∧
      decode [0x8B, 0xBF, 0, 0x80] = .ok (.movR16Rm16Mod10 7 7 0x8000) []) := by decide

theorem test_witness_LineShape : ∃ t, exec (.movR8Imm8 0 0) (onBytes []) = .next t := ⟨_, rfl⟩

theorem test_witness_LinesFollowTheGrammar :
    (Instr.movRm8R8Mod11 0 0).isRM = true ∧ (∃ t, exec (.movRm8R8Mod11 0 0) (onBytes []) = .next t) ∧
    (Instr.movR16Imm16 7 0).isRM = false ∧ (∃ t, exec (.movR16Imm16 7 0) (onBytes []) = .next t) :=
  ⟨by decide, ⟨_, rfl⟩, by decide, ⟨_, rfl⟩⟩

theorem test_witness_LineDeterminesTheMove :
    ∃ m m' : Move, lineText m = lineText m' :=
  ⟨⟨.reg ⟨.byte, 0⟩, .imm 0⟩, ⟨.reg ⟨.byte, 0⟩, .imm 0⟩, rfl⟩

theorem test_witness_ImmediateLinesDiffer :
    (Instr.movR8Imm8 0 0x80).isRM = false ∧
    ∃ t, exec (.movR8Imm8 0 0x80) (onBytes []) = .next t ∧ t.sink = t.sink :=
  ⟨by decide, _, rfl, rfl⟩

theorem test_witness_SynonymousEncodings :
    (Instr.movRm16R16Mod11 3 1).otherDirection = some (.movR16Rm16Mod11 1 3) ∧
    (5 : EaRow) ≠ 6 ∧ (7 : EaRow) ≠ 6 := by decide

theorem test_witness_SameEffectOnlyForOtherDirection :
    (Instr.movRm16R16Mod11 3 1).wf = true ∧ (Instr.movR16Rm16Mod11 1 3).wf = true ∧
    ∃ t, exec (.movRm16R16Mod11 3 1) (onBytes []) = .next t ∧
      exec (.movR16Rm16Mod11 1 3) (onBytes []) = .next t := ⟨by decide, by decide, _, rfl, rfl⟩

theorem test_witness_UnsupportedFirstByteFaults :
    ((onBytes [0x00]).Ready [0x00] ∧ classify 0x00 = .unsupported) ∧
    ((onBytes [0xAF, 0x89]).Ready [0xAF] ∧ classify 0xAF = .unsupported) :=
  ⟨⟨ready_onBytes _, by decide⟩,
   ⟨⟨rfl, Memory.wf_ofBytes _, fun k b h => (ready_onBytes [0xAF, 0x89]).bytesHere k b (by
      cases k with
      | zero => exact h
      | succ k => exact nomatch h)⟩, by decide⟩⟩

/-- The shortest and the longest remainder, and the two clauses on the length known. -/
theorem test_witness_TruncatedInstructionFaults :
    ((Instr.movR16Rm16Mod10 0 6 0).wf = true ∧
      encode (.movR16Rm16Mod10 0 6 0) = [0x8B] ++ [0x86, 0, 0] ∧ (onBytes [0x8B]).ReadyToEnd [0x8B]) ∧
    (encode (.movR16Rm16Mod10 0 6 0) = [0x8B, 0x86, 0] ++ [0] ∧
      (onBytes [0x8B, 0x86, 0]).ReadyToEnd [0x8B, 0x86, 0]) ∧
    ((Instr.movR16Imm16 0 0).wf = true ∧ encode (.movR16Imm16 0 0) = [0xB8] ++ [0, 0] ∧
      (onBytes [0xB8]).ReadyToEnd [0xB8]) :=
  ⟨⟨by decide, by decide, readyToEnd_onBytes _⟩, ⟨by decide, readyToEnd_onBytes _⟩,
   ⟨by decide, by decide, readyToEnd_onBytes _⟩⟩

theorem test_witness_DecodePastTheEnd :
    (Memory.ofBytes [0x89, 0xD9]).length ≤ 2 ∧
    State.status { onBytes [0x89, 0xD9] with cursor := 3 } = .run ∧
    (Memory.ofBytes [0x89, 0xD9]).wf = true ∧
    State.n { onBytes [0x89, 0xD9] with cursor := 3 } < 3 := by decide

theorem test_witness_FaultIsLatchedAndNothingElse :
    (onBytes [0x8B]).stream.wf = true ∧
    ∃ t, step (onBytes [0x8B]) = .next t ∧ t.status = .fault := ⟨by decide, _, rfl, rfl⟩

theorem test_witness_FaultPayloads :
    (Memory.ofBytes [0xC0]).wf = true ∧
    decodeAt (Memory.ofBytes [0xC0]) 0 = .fault (.unsupportedOpcode 0xC0 0) ∧
    decodeAt (Memory.ofBytes [0xC0]) 1 = .fault (.truncatedInstruction 1 1 0) ∧
    decodeAt (Memory.ofBytes [0x8B, 0x86, 0]) 0 = .fault (.truncatedInstruction 0 4 3) := by decide

theorem test_witness_NormalEnd :
    (onBytes []).status = .run ∧ (onBytes []).cursor = (onBytes []).n ∧
    ∃ t, step (onBytes []) = .next t ∧ t.status = .done := ⟨rfl, rfl, _, rfl, rfl⟩

theorem test_witness_StepIsEnabledExactlyInRun :
    State.status { onBytes [] with status := .done } = .done ∧
    State.status { onBytes [] with status := .fault } = .fault ∧
    (onBytes []).status = .run := by decide

theorem test_witness_CursorAdvancesByWholeInstructions :
    (onBytes [0x89, 0xD9]).stream.wf = true ∧
    (∃ t, step (onBytes [0x89, 0xD9]) = .next t ∧ t.status = .run) ∧
    (∃ t, step (onBytes []) = .next t ∧ t.status ≠ .run) :=
  ⟨by decide, ⟨_, rfl, rfl⟩, ⟨_, rfl, nofun⟩⟩

theorem test_witness_StreamIsNeverWritten : ∃ t, step (onBytes [0x89, 0xD9]) = .next t := ⟨_, rfl⟩

theorem test_witness_ReadsAreDefinedBelowTheLength :
    (Memory.ofBytes [0x89, 0xD9]).wf = true ∧ (Memory.ofBytes [0x89, 0xD9]).byteAt 1 = some 0xD9 ∧
    (Memory.ofBytes [0x89, 0xD9]).byteAt 2 = none := by decide

theorem test_witness_StepKeepsTheInvariant :
    (onBytes [0x89, 0xD9]).Inv ∧ ∃ t, step (onBytes [0x89, 0xD9]) = .next t :=
  ⟨inv_onBytes _, _, rfl⟩

theorem test_witness_StepIsTheSpecsStep :
    (onBytes [0xBF, 0xFF, 0x7F]).stream.wf = true ∧ (onBytes [0xBF, 0xFF, 0x7F]).status = .run := by
  decide

theorem test_witness_DecodedMovesAreWellFormed :
    ∃ m text k, decodeAt (Memory.ofBytes [0xBF, 0xFF, 0x7F]) 0 = .ok m text k := ⟨_, _, _, rfl⟩

/-- Two streams that agree on the instruction's two bytes and differ after them. -/
theorem test_witness_DecodeDependsOnItsBytesOnly :
    (Memory.ofBytes [0x89, 0xD9]).wf = true ∧ (Memory.ofBytes [0x89, 0xD9, 0xC0]).wf = true ∧
    decodeAt (Memory.ofBytes [0x89, 0xD9]) 0 =
      .ok ⟨.reg ⟨.word, 1⟩, .reg ⟨.word, 3⟩⟩ "mov cx, bx" 2 ∧
    ∀ a, 0 ≤ a → a < 0 + 2 →
      (Memory.ofBytes [0x89, 0xD9, 0xC0]).byteAt a = (Memory.ofBytes [0x89, 0xD9]).byteAt a :=
  ⟨by decide, by decide, by decide, by decide⟩

theorem test_witness_EveryRunEnds :
    (onBytes [0x89, 0xD9, 0xB0]).status = .run ∧ (onBytes [0x89, 0xD9, 0xB0]).stream.wf = true ∧
    (onBytes [0x89, 0xD9, 0xB0]).cursor ≤ (onBytes [0x89, 0xD9, 0xB0]).n := by decide

theorem test_witness_RunPrintsEveryInstruction :
    (∀ i ∈ [Instr.movRm16R16Mod11 3 1, Instr.movR8Imm8 1 0x0C], i.wf = true) ∧
    (onBytes [0x89, 0xD9, 0xB1, 0x0C]).ReadyToEnd
      ([Instr.movRm16R16Mod11 3 1, Instr.movR8Imm8 1 0x0C].flatMap encode) :=
  ⟨by decide, readyToEnd_onBytes _⟩

theorem test_witness_RunStopsAtTheFirstFault :
    (∀ i ∈ [Instr.movRm16R16Mod11 3 1], i.wf = true) ∧
    (decode [0xC0, 0x01] = .unsupported 0xC0 ∧ (onBytes [0x89, 0xD9, 0xC0, 0x01]).ReadyToEnd
      ([Instr.movRm16R16Mod11 3 1].flatMap encode ++ [0xC0, 0x01])) ∧
    (decode [0x8B] = .truncated 2 ∧ (onBytes [0x89, 0xD9, 0x8B]).ReadyToEnd
      ([Instr.movRm16R16Mod11 3 1].flatMap encode ++ [0x8B])) :=
  ⟨by decide, ⟨by decide, readyToEnd_onBytes _⟩, ⟨by decide, readyToEnd_onBytes _⟩⟩

theorem test_witness_HostSeesTheOutcome :
    (onBytes []).status = .run ∧ State.status { onBytes [] with status := .done } = .done ∧
    State.status { onBytes [] with status := .fault } = .fault := by decide

end Sys2Proof.Tests
end

/-! SUPPORT. Proofs of the statements on the scope's readings and types (00_scope.md): the signed readings
(R8), decimal numerals (R10), and what the spec's `Decode` returns and raises (R12). -/

namespace Sys2Proof.Machine

/-! Signed readings. -/

/-- Sign extension to 16 bits keeps the signed value (R8). -/
theorem s16_sext16 (b : Byte) : s16 (sext16 b) = s8 b := by
  have := b.isLt
  unfold s16 sext16 s8
  by_cases hnonneg : b.toNat < 128
  · simp only [hnonneg, if_true, BitVec.toNat_ofNat]
    split <;> omega
  · simp only [hnonneg, if_false, BitVec.toNat_ofNat]
    split <;> omega

/-- Settles O29, from the two's-complement readings and the joining of two bytes. -/
theorem signedReadings : Obligations.SignedReadings := by
  refine ⟨fun b => ?_, fun x => ?_, fun lo hi => ?_⟩
  · obtain ⟨hlow, hhigh⟩ := s8_range b
    exact ⟨s8_toInt b, hlow, hhigh, s16_sext16 b⟩
  · exact ⟨s16_toInt x, s16_range x⟩
  · exact ⟨u16le_append lo hi, (u16leNat_eq lo hi).symm, (s16leInt_eq lo hi).symm⟩

/-! Decimal numerals. -/

theorem decDigits_of_lt {n : Nat} (h : n < 10) (fuel : Nat) :
    decDigits fuel n = [Nat.digitChar n] := by
  cases fuel with
  | zero => simp [decDigits, Nat.mod_eq_of_lt h]
  | succ fuel => simp [decDigits, h]

theorem decDigits_succ_of_le {n : Nat} (h : 10 ≤ n) (fuel : Nat) :
    decDigits (fuel + 1) n = decDigits fuel (n / 10) ++ [Nat.digitChar (n % 10)] := by
  simp [decDigits, Nat.not_lt.mpr h]

theorem digitChar_mem_digits {n : Nat} (h : n < 10) :
    Nat.digitChar n ∈ "0123456789".toList :=
  (by decide : ∀ k : Fin 10, Nat.digitChar k.val ∈ "0123456789".toList) ⟨n, h⟩

theorem digitChar_mem_nonzeroDigits {n : Nat} (hpos : 0 < n) (h : n < 10) :
    Nat.digitChar n ∈ "123456789".toList :=
  (by decide : ∀ k : Fin 10, 0 < k.val → Nat.digitChar k.val ∈ "123456789".toList) ⟨n, h⟩ hpos

theorem digitChar_toNat_sub_zero {n : Nat} (h : n < 10) :
    (Nat.digitChar n).toNat - '0'.toNat = n :=
  (by decide : ∀ k : Fin 10, (Nat.digitChar k.val).toNat - '0'.toNat = k.val) ⟨n, h⟩

/-- The digits of a positive number: a nonzero digit and then digits (R73), so no leading zero. -/
theorem decDigits_nonzero_then_digits {fuel n : Nat} (hpos : 0 < n) (hfuel : n ≤ fuel) :
    ∃ c cs, decDigits fuel n = c :: cs ∧ c ∈ "123456789".toList ∧
      ∀ d ∈ cs, d ∈ "0123456789".toList := by
  induction fuel generalizing n with
  | zero => omega
  | succ fuel ih =>
    by_cases hlt : n < 10
    · exact ⟨_, [], decDigits_of_lt hlt _, digitChar_mem_nonzeroDigits hpos hlt, by simp⟩
    · obtain ⟨c, cs, heq, hc, hcs⟩ := ih (n := n / 10) (by omega) (by omega)
      refine ⟨c, cs ++ [Nat.digitChar (n % 10)], ?_, hc, fun d hd => ?_⟩
      · rw [decDigits_succ_of_le (by omega), heq, List.cons_append]
      · obtain hd | hd := List.mem_append.mp hd
        · exact hcs d hd
        · rw [List.mem_singleton.mp hd]
          exact digitChar_mem_digits (Nat.mod_lt n (by decide))

theorem digitsValue_singleton (c : Char) :
    digitsValue (String.ofList [c]) = c.toNat - '0'.toNat := by
  simp [digitsValue]

theorem digitsValue_concat (cs : List Char) (c : Char) :
    digitsValue (String.ofList (cs ++ [c])) =
      10 * digitsValue (String.ofList cs) + (c.toNat - '0'.toNat) := by
  simp [digitsValue]

theorem digitsValue_decDigits {fuel n : Nat} (hfuel : n ≤ fuel) :
    digitsValue (String.ofList (decDigits fuel n)) = n := by
  induction fuel generalizing n with
  | zero => rw [Nat.le_zero.mp hfuel]; rfl
  | succ fuel ih =>
    by_cases hlt : n < 10
    · rw [decDigits_of_lt hlt, digitsValue_singleton, digitChar_toNat_sub_zero hlt]
    · rw [decDigits_succ_of_le (by omega), digitsValue_concat, ih (by omega),
        digitChar_toNat_sub_zero (Nat.mod_lt n (by decide))]
      exact Nat.div_add_mod n 10

theorem dec_zero : dec 0 = "0" := rfl

/-- `dec` reads back as the number it prints. -/
theorem digitsValue_dec (n : Nat) : digitsValue (dec n) = n :=
  digitsValue_decDigits (Nat.le_refl n)

/-- `dec` prints a `number` of the grammar (R73). -/
theorem dec_isNumber (n : Nat) : IsNumber (dec n) := by
  rcases Nat.eq_zero_or_pos n with rfl | hpos
  · exact .inl dec_zero
  · obtain ⟨c, cs, heq, hc, hcs⟩ := decDigits_nonzero_then_digits hpos (Nat.le_refl n)
    exact .inr ⟨c, cs, by rw [dec, heq], hc, hcs⟩

theorem sdec_natCast (n : Nat) : sdec (n : Int) = dec n := by
  simp [sdec]

theorem sdec_neg {n : Nat} (hpos : 0 < n) : sdec (-(n : Int)) = "-" ++ dec n := by
  have hneg : ¬ (0 : Int) ≤ -(n : Int) := by omega
  rw [sdec, if_neg hneg, Int.natAbs_neg, Int.natAbs_natCast]

/-- Settles O26, by induction on the digits of the number for `dec`, and by the sign for `sdec`. -/
theorem decimalNumerals : Obligations.DecimalNumerals :=
  ⟨fun n => ⟨dec_isNumber n, digitsValue_dec n⟩, dec_zero, sdec_natCast, fun _ => sdec_neg,
    fun _ => rfl, fun _ => rfl⟩

/-! The spec's `Decode`: what it returns when it succeeds. -/

theorem lenRM_bounds (mod : Nat) (rm : Fin 8) : 2 ≤ lenRM mod rm ∧ lenRM mod rm ≤ 4 := by
  unfold lenRM
  repeat' split
  all_goals decide

/-- The length `L` of R135 keeps to the least and the greatest instruction length (R60). -/
theorem lenIMM_bounds (w : Nat) :
    2 ≤ (if w = 0 then 2 else 3) ∧ (if w = 0 then 2 else 3) ≤ 4 := by
  split <;> decide

theorem width_of_bit_zero : ∀ b : Byte,
    (if bits b 0 0 = 0 then Width.byte else Width.word) = widthOfFlag (widthBit b) := by decide

theorem direct_wf (lo hi : Byte) : (EAExpr.direct (u16leNat lo hi)).wf = true := by
  have := (u16le lo hi).isLt
  simp only [EAExpr.wf, u16leNat_eq, decide_eq_true_eq]
  omega

theorem baseDisp_zero_wf (row : EaRow) : (EAExpr.baseDisp row 0).wf = true := rfl

theorem baseDisp_s8_wf (row : EaRow) (b : Byte) : (EAExpr.baseDisp row (s8 b)).wf = true := by
  have := s8_range b
  simp only [EAExpr.wf, Bool.and_eq_true, decide_eq_true_eq]
  omega

theorem baseDisp_s16leInt_wf (row : EaRow) (lo hi : Byte) :
    (EAExpr.baseDisp row (s16leInt lo hi)).wf = true := by
  simpa [EAExpr.wf, s16leInt_eq] using s16_range (u16le lo hi)

/-- The other operand of a register/memory move is a register of the same width, or a memory operand in
range (R103 to R108). -/
theorem otherOperand_cases {S : Memory} {c mod : Nat} {width : Width} {rm : Fin 8} {X : Operand}
    (h : otherOperand S c width mod rm = some X) :
    X = .reg ⟨width, rm⟩ ∨ ∃ e : EAExpr, e.wf = true ∧ X = .mem e := by
  unfold otherOperand at h
  split at h
  · exact .inl (Option.some.inj h).symm
  · refine .inr ?_
    split at h
    · split at h
      · exact ⟨_, direct_wf _ _, (Option.some.inj h).symm⟩
      · cases h
    · split at h
      · exact ⟨_, baseDisp_zero_wf _, (Option.some.inj h).symm⟩
      · split at h
        · split at h
          · exact ⟨_, baseDisp_s8_wf _ _, (Option.some.inj h).symm⟩
          · cases h
        · split at h
          · exact ⟨_, baseDisp_s16leInt_wf _ _ _, (Option.some.inj h).symm⟩
          · cases h

/-- Everything a successful `DecodeRM` says (R114). -/
theorem decodeRMAt_eq_ok {S : Memory} {c k : Nat} {b0 : Byte} {m : Move} {text : Line}
    (h : decodeRMAt S c b0 = .ok m text k) :
    ∃ b1 X, S.byteAt (c + 1) = some b1 ∧
      otherOperand S c (widthOfFlag (widthBit b0)) (bits b1 7 6) (rmField b1) = some X ∧
      m = movOf (dirBit b0) (regOperand (widthBit b0) (regField b1)) X ∧
      text = lineText m ∧ k = lenRM (bits b1 7 6) (rmField b1) ∧ c + k ≤ S.length := by
  simp only [decodeRMAt, width_of_bit_zero] at h
  split at h
  · cases h
  · split at h
    · cases h
    next b1 hb1 =>
      split at h
      · cases h
      next hlen =>
        split at h
        · cases h
        next X hX =>
          cases h
          refine ⟨b1, X, hb1, hX, ?_, rfl, rfl, Nat.le_of_not_lt hlen⟩
          simp only [movOf, dirBit, beq_iff_eq]
          rfl

/-- Everything a successful `DecodeIMM` says (R135). -/
theorem decodeIMMAt_eq_ok {S : Memory} {c k : Nat} {b0 : Byte} {m : Move} {text : Line}
    (h : decodeIMMAt S c b0 = .ok m text k) :
    ∃ v, immediateAt S c (bits b0 3 3) = some v ∧
      m = ⟨.reg ⟨if bits b0 3 3 = 0 then .byte else .word, immRegField b0⟩, .imm v⟩ ∧
      text = lineText m ∧ k = (if bits b0 3 3 = 0 then 2 else 3) ∧ c + k ≤ S.length := by
  unfold decodeIMMAt at h
  dsimp only at h
  by_cases hlen : S.length < c + (if bits b0 3 3 = 0 then 2 else 3)
  · rw [if_pos hlen] at h
    cases h
  · rw [if_neg hlen] at h
    split at h
    · cases h
    next v hv =>
      cases h
      exact ⟨v, hv, rfl, rfl, rfl, Nat.le_of_not_lt hlen⟩

/-- A successful `Decode` is that of one of the two handlers (R91). -/
theorem decodeAt_eq_ok {S : Memory} {c k : Nat} {m : Move} {text : Line}
    (h : decodeAt S c = .ok m text k) :
    ∃ b0, S.byteAt c = some b0 ∧
      ((classify b0 = .rmMov ∧ decodeRMAt S c b0 = .ok m text k) ∨
        (classify b0 = .immMov ∧ decodeIMMAt S c b0 = .ok m text k)) := by
  unfold decodeAt at h
  split at h
  · cases h
  · split at h
    · cases h
    next b0 hb0 =>
      refine ⟨b0, hb0, ?_⟩
      split at h
      next hclass => exact .inl ⟨hclass, h⟩
      next hclass => exact .inr ⟨hclass, h⟩
      · cases h

theorem movOf_regOperand_reg_wf (d w : Bool) (i j : RegIndex) :
    (movOf d (regOperand w i) (regOperand w j)).wf = true := by
  cases d <;> simp [movOf, regOperand, Move.wf]

theorem movOf_regOperand_mem_wf (d w : Bool) (i : RegIndex) {e : EAExpr} (he : e.wf = true) :
    (movOf d (regOperand w i) (.mem e)).wf = true := by
  cases d <;> exact he

theorem immInRange_of_immediateAt {S : Memory} {c w : Nat} {v : Int}
    (h : immediateAt S c w = some v) : immInRange (if w = 0 then .byte else .word) v = true := by
  unfold immediateAt at h
  by_cases hw : w = 0
  · rw [if_pos hw] at h ⊢
    split at h
    next b _ => cases h; simpa [immInRange] using s8_range b
    · cases h
  · rw [if_neg hw] at h ⊢
    split at h
    next lo hi _ _ => cases h; simpa [immInRange, s16leInt_eq] using s16_range (u16le lo hi)
    · cases h

/-- Settles O51, by the handler that decoded the instruction. -/
theorem decodedMovesAreWellFormed : Obligations.DecodedMovesAreWellFormed := by
  intro S c k m text h
  obtain ⟨b0, -, ⟨-, h⟩ | ⟨-, h⟩⟩ := decodeAt_eq_ok h
  · obtain ⟨b1, X, -, hX, rfl, htext, rfl, hlen⟩ := decodeRMAt_eq_ok h
    obtain ⟨hlow, hhigh⟩ := lenRM_bounds (bits b1 7 6) (rmField b1)
    refine ⟨?_, htext, hlow, hhigh, hlen⟩
    obtain rfl | ⟨e, he, rfl⟩ := otherOperand_cases hX
    · exact movOf_regOperand_reg_wf _ _ _ _
    · exact movOf_regOperand_mem_wf _ _ _ he
  · obtain ⟨v, hv, rfl, htext, rfl, hlen⟩ := decodeIMMAt_eq_ok h
    obtain ⟨hlow, hhigh⟩ := lenIMM_bounds (bits b0 3 3)
    exact ⟨immInRange_of_immediateAt hv, htext, hlow, hhigh, hlen⟩

/-! The spec's `Decode`: the faults it raises. On a canonical stream every byte below the length exists, so
a handler that passes its length check finds all its bytes. -/

section Faults

variable {S : Memory} {c : Nat} {f : FaultRecord}

theorem Memory.exists_byteAt_of_lt {a : Nat} (hS : S.wf = true) (ha : a < S.length) :
    ∃ b, S.byteAt a = some b := by
  rw [Memory.byteAt_of_wf hS]
  exact ⟨_, List.getElem?_eq_getElem (by rwa [Memory.length_bytes])⟩

theorem exists_otherOperand (hS : S.wf = true) (width : Width) {mod : Nat} {rm : Fin 8}
    (hlen : c + lenRM mod rm ≤ S.length) : ∃ X, otherOperand S c width mod rm = some X := by
  have hbyte : ∀ k < lenRM mod rm, ∃ b, S.byteAt (c + k) = some b :=
    fun k hk => Memory.exists_byteAt_of_lt hS (by omega)
  unfold otherOperand
  unfold lenRM at hbyte
  by_cases hreg : mod = 3
  · simp [hreg]
  · by_cases hmem : mod = 0
    · by_cases hdirect : rm = 6
      · simp only [hmem, hdirect] at hbyte ⊢
        obtain ⟨lo, hlo⟩ := hbyte 2 (by decide)
        obtain ⟨hi, hhi⟩ := hbyte 3 (by decide)
        simp [hlo, hhi]
      · simp [hmem, hdirect]
    · by_cases hdisp8 : mod = 1
      · simp only [hdisp8] at hbyte ⊢
        obtain ⟨b, hb⟩ := hbyte 2 (by simp)
        simp [hb]
      · simp only [hreg, hmem, hdisp8, if_false] at hbyte
        obtain ⟨lo, hlo⟩ := hbyte 2 (by decide)
        obtain ⟨hi, hhi⟩ := hbyte 3 (by decide)
        simp [hreg, hmem, hdisp8, hlo, hhi]

theorem exists_immediateAt (hS : S.wf = true) {w : Nat}
    (hlen : c + (if w = 0 then 2 else 3) ≤ S.length) : ∃ v, immediateAt S c w = some v := by
  unfold immediateAt
  by_cases hw : w = 0
  · rw [if_pos hw] at hlen ⊢
    obtain ⟨b, hb⟩ := Memory.exists_byteAt_of_lt hS (a := c + 1) (by omega)
    simp [hb]
  · rw [if_neg hw] at hlen ⊢
    obtain ⟨lo, hlo⟩ := Memory.exists_byteAt_of_lt hS (a := c + 1) (by omega)
    obtain ⟨hi, hhi⟩ := Memory.exists_byteAt_of_lt hS (a := c + 2) (by omega)
    simp [hlo, hhi]

/-- The faults of `DecodeRM` (R102, R114): byte 1 is missing, or the length it tells is not there. -/
theorem decodeRMAt_eq_fault {b0 : Byte} (hS : S.wf = true) (h : decodeRMAt S c b0 = .fault f) :
    (S.length ≤ c + 1 ∧ f = .truncatedInstruction c 2 (S.length - c)) ∨
    ∃ b1, S.byteAt (c + 1) = some b1 ∧ S.length < c + lenRM (bits b1 7 6) (rmField b1) ∧
      f = .truncatedInstruction c (lenRM (bits b1 7 6) (rmField b1)) (S.length - c) := by
  unfold decodeRMAt at h
  by_cases hshort : S.length ≤ c + 1
  · rw [if_pos hshort] at h
    exact .inl ⟨hshort, (Result.fault.inj h).symm⟩
  · obtain ⟨b1, hb1⟩ := Memory.exists_byteAt_of_lt hS (Nat.lt_of_not_le hshort)
    simp only [if_neg hshort, hb1] at h
    refine .inr ⟨b1, hb1, ?_⟩
    by_cases hlen : S.length < c + lenRM (bits b1 7 6) (rmField b1)
    · rw [rmField] at hlen
      rw [if_pos hlen] at h
      exact ⟨hlen, (Result.fault.inj h).symm⟩
    · obtain ⟨X, hX⟩ := exists_otherOperand hS (if bits b0 0 0 = 0 then .byte else .word)
        (Nat.le_of_not_lt hlen)
      rw [rmField] at hlen hX
      simp only [if_neg hlen, hX] at h
      cases h

/-- The fault of `DecodeIMM` (R135): the length that the width bit tells is not there. -/
theorem decodeIMMAt_eq_fault {b0 : Byte} (hS : S.wf = true) (h : decodeIMMAt S c b0 = .fault f) :
    S.length < c + (if bits b0 3 3 = 0 then 2 else 3) ∧
      f = .truncatedInstruction c (if bits b0 3 3 = 0 then 2 else 3) (S.length - c) := by
  unfold decodeIMMAt at h
  dsimp only at h
  by_cases hlen : S.length < c + (if bits b0 3 3 = 0 then 2 else 3)
  · rw [if_pos hlen] at h
    exact ⟨hlen, (Result.fault.inj h).symm⟩
  · obtain ⟨v, hv⟩ := exists_immediateAt hS (Nat.le_of_not_lt hlen)
    simp only [if_neg hlen, hv] at h
    cases h

/-- A fault of `Decode` (R91, R95): the offset is at or past the end, or one of the handlers raises it, or
the byte there is unsupported. -/
theorem decodeAt_eq_fault (hS : S.wf = true) (h : decodeAt S c = .fault f) :
    (S.length ≤ c ∧ f = .truncatedInstruction c 1 0) ∨
    ∃ b0, c < S.length ∧ S.byteAt c = some b0 ∧
      ((classify b0 = .rmMov ∧ decodeRMAt S c b0 = .fault f) ∨
        (classify b0 = .immMov ∧ decodeIMMAt S c b0 = .fault f) ∨
        (classify b0 = .unsupported ∧ f = .unsupportedOpcode b0 c)) := by
  unfold decodeAt at h
  by_cases hend : S.length ≤ c
  · rw [if_pos hend] at h
    exact .inl ⟨hend, (Result.fault.inj h).symm⟩
  · obtain ⟨b0, hb0⟩ := Memory.exists_byteAt_of_lt hS (Nat.lt_of_not_le hend)
    simp only [if_neg hend, hb0] at h
    refine .inr ⟨b0, Nat.lt_of_not_le hend, hb0, ?_⟩
    cases hclass : classify b0 with
    | rmMov => rw [hclass] at h; exact .inl ⟨rfl, h⟩
    | immMov => rw [hclass] at h; exact .inr (.inl ⟨rfl, h⟩)
    | unsupported => rw [hclass] at h; exact .inr (.inr ⟨rfl, (Result.fault.inj h).symm⟩)

end Faults

/-- Settles O41, by the place in `Decode` where the fault is raised. -/
theorem faultPayloads : Obligations.FaultPayloads := by
  intro S c f hS h
  obtain ⟨hend, rfl⟩ | ⟨b0, -, hb0, ⟨-, h⟩ | ⟨-, h⟩ | ⟨hclass, rfl⟩⟩ := decodeAt_eq_fault hS h
  · exact .inr ⟨1, by rw [Nat.sub_eq_zero_of_le hend], by omega, by decide, by decide⟩
  · obtain ⟨hshort, rfl⟩ | ⟨b1, -, hshort, rfl⟩ := decodeRMAt_eq_fault hS h
    · exact .inr ⟨2, rfl, by omega, by decide, by decide⟩
    · obtain ⟨hlow, hhigh⟩ := lenRM_bounds (bits b1 7 6) (rmField b1)
      exact .inr ⟨_, rfl, by omega, by omega, hhigh⟩
  · obtain ⟨hshort, rfl⟩ := decodeIMMAt_eq_fault hS h
    obtain ⟨hlow, hhigh⟩ := lenIMM_bounds (bits b0 3 3)
    exact .inr ⟨_, rfl, by omega, by omega, hhigh⟩
  · exact .inl ⟨b0, rfl, hb0, hclass⟩

end Sys2Proof.Machine

/-! SUPPORT. Proofs of the statements on the state (10_state.md): the name tables (R22, R23), the cursor
(R24), the status and the fault record (R25, R26), noninterference (R30), reset (R34) and the invariant of
every run. They rest on one fact: on a canonical stream the machine's fetch answers what the spec's
`Decode` does. -/

namespace Sys2Proof.Machine

/-! The machine's decoder against the spec's `Decode`. -/

/-- The move that a row of the opcode table stands for (R104 to R108, R132). -/
def moveOf : Instr → Move
  | .movRm8R8Mod11 reg rm => movOf false (regOperand false reg) (regOperand false rm)
  | .movRm8R8Mod00 reg rm => movOf false (regOperand false reg) (memBase rm)
  | .movRm8R8Direct reg addr => movOf false (regOperand false reg) (memDirect addr)
  | .movRm8R8Mod01 reg rm disp => movOf false (regOperand false reg) (memDisp8 rm disp)
  | .movRm8R8Mod10 reg rm disp => movOf false (regOperand false reg) (memDisp16 rm disp)
  | .movRm16R16Mod11 reg rm => movOf false (regOperand true reg) (regOperand true rm)
  | .movRm16R16Mod00 reg rm => movOf false (regOperand true reg) (memBase rm)
  | .movRm16R16Direct reg addr => movOf false (regOperand true reg) (memDirect addr)
  | .movRm16R16Mod01 reg rm disp => movOf false (regOperand true reg) (memDisp8 rm disp)
  | .movRm16R16Mod10 reg rm disp => movOf false (regOperand true reg) (memDisp16 rm disp)
  | .movR8Rm8Mod11 reg rm => movOf true (regOperand false reg) (regOperand false rm)
  | .movR8Rm8Mod00 reg rm => movOf true (regOperand false reg) (memBase rm)
  | .movR8Rm8Direct reg addr => movOf true (regOperand false reg) (memDirect addr)
  | .movR8Rm8Mod01 reg rm disp => movOf true (regOperand false reg) (memDisp8 rm disp)
  | .movR8Rm8Mod10 reg rm disp => movOf true (regOperand false reg) (memDisp16 rm disp)
  | .movR16Rm16Mod11 reg rm => movOf true (regOperand true reg) (regOperand true rm)
  | .movR16Rm16Mod00 reg rm => movOf true (regOperand true reg) (memBase rm)
  | .movR16Rm16Direct reg addr => movOf true (regOperand true reg) (memDirect addr)
  | .movR16Rm16Mod01 reg rm disp => movOf true (regOperand true reg) (memDisp8 rm disp)
  | .movR16Rm16Mod10 reg rm disp => movOf true (regOperand true reg) (memDisp16 rm disp)
  | .movR8Imm8 reg imm => ⟨regOperand false reg, immOperand8 imm⟩
  | .movR16Imm16 reg imm => ⟨regOperand true reg, immOperand16 imm⟩

/-- `exec_retires` with the move named. -/
theorem exec_eq_retire (i : Instr) (s : State) : exec i s = retire (moveOf i) i.length s := by
  cases i <;> rfl

/-- What the spec's `Decode` returns where the machine's decoder, shown the bytes from offset `c` of a
stream of length `N`, gives this answer. -/
def resultOf (c N : Nat) : Decoded → Result
  | .ok i _ => .ok (moveOf i) (lineText (moveOf i)) i.length
  | .unsupported b => .fault (.unsupportedOpcode b c)
  | .truncated k => .fault (.truncatedInstruction c k (N - c))

section Rows

variable (d w : Bool) (reg rm : Fin 8) (b : Byte) (x : Word) (c N : Nat) (rest : List Byte)

/-- The result of a decoded register/memory row, from its other operand `X` and its length. -/
def rmResult (X : Operand) (k : Nat) : Result :=
  .ok (movOf d (regOperand w reg) X) (lineText (movOf d (regOperand w reg) X)) k

@[simp] theorem resultOf_rowMod11 :
    resultOf c N (.ok (rowMod11 d w reg rm) rest) = rmResult d w reg (regOperand w rm) 2 := by
  cases d <;> cases w <;> rfl

@[simp] theorem resultOf_rowMod00 :
    resultOf c N (.ok (rowMod00 d w reg rm) rest) = rmResult d w reg (memBase rm) 2 := by
  cases d <;> cases w <;> rfl

@[simp] theorem resultOf_rowDirect :
    resultOf c N (.ok (rowDirect d w reg x) rest) = rmResult d w reg (memDirect x) 4 := by
  cases d <;> cases w <;> rfl

@[simp] theorem resultOf_rowMod01 :
    resultOf c N (.ok (rowMod01 d w reg rm b) rest) = rmResult d w reg (memDisp8 rm b) 3 := by
  cases d <;> cases w <;> rfl

@[simp] theorem resultOf_rowMod10 :
    resultOf c N (.ok (rowMod10 d w reg rm x) rest) = rmResult d w reg (memDisp16 rm x) 4 := by
  cases d <;> cases w <;> rfl

end Rows

theorem bits_mod_eq_code : ∀ b : Byte, bits b 7 6 = (modField b).code := by decide

theorem bits_immWidth_eq_toNat : ∀ b : Byte, bits b 3 3 = (immWidthBit b).toNat := by decide

section Handlers

variable {S T : Memory} {c : Nat} {b0 b1 : Byte}

/-- `DecodeRM` on an instruction whose bytes all exist (R114). -/
theorem decodeRMAt_of_complete {X : Operand} (hb1 : S.byteAt (c + 1) = some b1)
    (hX : otherOperand S c (widthOfFlag (widthBit b0)) (bits b1 7 6) (rmField b1) = some X)
    (hlen : c + lenRM (bits b1 7 6) (rmField b1) ≤ S.length) :
    decodeRMAt S c b0 = rmResult (dirBit b0) (widthBit b0) (regField b1) X
      (lenRM (bits b1 7 6) (rmField b1)) := by
  have hlow := (lenRM_bounds (bits b1 7 6) (rmField b1)).1
  have hshort : ¬ S.length ≤ c + 1 := by omega
  have hnot := Nat.not_lt.mpr hlen
  rw [rmField] at hnot hX
  simp only [decodeRMAt, width_of_bit_zero, if_neg hshort, hb1, if_neg hnot, hX]
  simp only [rmResult, movOf, dirBit, beq_iff_eq]
  rfl

/-- `DecodeRM` where byte 1 exists and a later byte of the instruction does not (R102, R114). -/
theorem decodeRMAt_of_short (hb1 : S.byteAt (c + 1) = some b1) (hlong : c + 1 < S.length)
    (hlen : S.length < c + lenRM (bits b1 7 6) (rmField b1)) :
    decodeRMAt S c b0 =
      .fault (.truncatedInstruction c (lenRM (bits b1 7 6) (rmField b1)) (S.length - c)) := by
  rw [rmField] at hlen ⊢
  simp only [decodeRMAt, if_neg (Nat.not_le.mpr hlong), hb1, if_pos hlen]

/-- `DecodeRM` without a byte 1 (R102, check 1). -/
theorem decodeRMAt_of_no_byte1 (hend : S.length ≤ c + 1) :
    decodeRMAt S c b0 = .fault (.truncatedInstruction c 2 (S.length - c)) := by
  simp only [decodeRMAt, if_pos hend]

/-- `DecodeIMM` on an instruction whose bytes all exist (R135). -/
theorem decodeIMMAt_of_complete {v : Int} (hv : immediateAt S c (bits b0 3 3) = some v)
    (hlen : c + (if bits b0 3 3 = 0 then 2 else 3) ≤ S.length) :
    decodeIMMAt S c b0 =
      .ok ⟨.reg ⟨if bits b0 3 3 = 0 then .byte else .word, immRegField b0⟩, .imm v⟩
        (lineText ⟨.reg ⟨if bits b0 3 3 = 0 then .byte else .word, immRegField b0⟩, .imm v⟩)
        (if bits b0 3 3 = 0 then 2 else 3) := by
  simp only [decodeIMMAt, if_neg (Nat.not_lt.mpr hlen), hv]
  rfl

/-- `DecodeIMM` where a byte of the immediate does not exist (R135). -/
theorem decodeIMMAt_of_short (hlen : S.length < c + (if bits b0 3 3 = 0 then 2 else 3)) :
    decodeIMMAt S c b0 =
      .fault (.truncatedInstruction c (if bits b0 3 3 = 0 then 2 else 3) (S.length - c)) := by
  simp only [decodeIMMAt, if_pos hlen]

end Handlers

/-- The stream from offset `c` to its end is exactly the bytes `bs`. -/
structure Memory.EndsWith (S : Memory) (c : Nat) (bs : List Byte) : Prop where
  length_eq : S.length = c + bs.length
  byteAt_eq : ∀ k, S.byteAt (c + k) = bs[k]?

theorem Memory.endsWith_drop {S : Memory} {c : Nat} (hS : S.wf = true) (hc : c ≤ S.length) :
    S.EndsWith c (S.bytes.drop c) where
  length_eq := by rw [List.length_drop, Memory.length_bytes]; omega
  byteAt_eq k := by rw [Memory.byteAt_of_wf hS, List.getElem?_drop]

section OtherOperand

variable {S : Memory} {c : Nat} {rm : Fin 8} (width : Width)

theorem otherOperand_registerDirect :
    otherOperand S c width 3 rm = some (.reg ⟨width, rm⟩) := rfl

theorem otherOperand_memory (hrm : rm ≠ 6) :
    otherOperand S c width 0 rm = some (memBase rm) := by
  simp [otherOperand, hrm, memBase]

theorem otherOperand_direct {lo hi : Byte} (hlo : S.byteAt (c + 2) = some lo)
    (hhi : S.byteAt (c + 3) = some hi) :
    otherOperand S c width 0 6 = some (memDirect (u16le lo hi)) := by
  simp [otherOperand, hlo, hhi, memDirect, u16leNat_eq]

theorem otherOperand_memoryDisp8 {disp : Byte} (hdisp : S.byteAt (c + 2) = some disp) :
    otherOperand S c width 1 rm = some (memDisp8 rm disp) := by
  simp [otherOperand, hdisp, memDisp8]

theorem otherOperand_memoryDisp16 {lo hi : Byte} (hlo : S.byteAt (c + 2) = some lo)
    (hhi : S.byteAt (c + 3) = some hi) :
    otherOperand S c width 2 rm = some (memDisp16 rm (u16le lo hi)) := by
  simp [otherOperand, hlo, hhi, memDisp16, s16leInt_eq]

theorem lenRM_memory (hrm : rm ≠ 6) : lenRM 0 rm = 2 := by
  simp [lenRM, hrm]

end OtherOperand

section Agreement

variable {S : Memory} {c : Nat} {b0 b1 : Byte} {rest : List Byte}

/-- A register/memory instruction whose bytes all exist is the row with that operand and length. -/
theorem decodeRMAt_eq_rmResult {mod L : Nat} {rm : Fin 8} {X : Operand}
    (h : S.EndsWith c (b0 :: b1 :: rest)) (hmod : bits b1 7 6 = mod) (hrm : rmField b1 = rm)
    (hL : lenRM mod rm = L) (hlen : L ≤ rest.length + 2)
    (hX : otherOperand S c (widthOfFlag (widthBit b0)) mod rm = some X) :
    decodeRMAt S c b0 = rmResult (dirBit b0) (widthBit b0) (regField b1) X L := by
  subst hmod hrm hL
  have hN : S.length = c + (rest.length + 2) := h.length_eq
  exact decodeRMAt_of_complete (h.byteAt_eq 1) hX (by omega)

/-- A register/memory instruction with a byte 1 and too few bytes after it is truncated. -/
theorem decodeRMAt_eq_truncated {mod L : Nat} {rm : Fin 8}
    (h : S.EndsWith c (b0 :: b1 :: rest)) (hmod : bits b1 7 6 = mod) (hrm : rmField b1 = rm)
    (hL : lenRM mod rm = L) (hlen : rest.length + 2 < L) :
    decodeRMAt S c b0 = resultOf c S.length (.truncated L) := by
  subst hmod hrm hL
  have hN : S.length = c + (rest.length + 2) := h.length_eq
  exact decodeRMAt_of_short (h.byteAt_eq 1) (by omega) (by omega)

/-- The two decoders of format RM agree, form by form (R63). -/
theorem decodeRMAt_eq_resultOf (h : S.EndsWith c (b0 :: b1 :: rest)) :
    decodeRMAt S c b0 =
      resultOf c S.length (decodeRM (dirBit b0) (widthBit b0) b1 rest) := by
  have hmod := bits_mod_eq_code b1
  unfold decodeRM
  cases hform : modField b1 with
  | registerDirect =>
    rw [hform] at hmod
    simp only [resultOf_rowMod11]
    exact decodeRMAt_eq_rmResult h hmod rfl rfl (by omega) (otherOperand_registerDirect _)
  | memory =>
    rw [hform] at hmod
    by_cases hrm : rmField b1 = 6
    · simp only [hrm, if_true]
      rcases rest with _ | ⟨lo, _ | ⟨hi, more⟩⟩
      · exact decodeRMAt_eq_truncated h hmod hrm rfl (by simp)
      · exact decodeRMAt_eq_truncated h hmod hrm rfl (by simp)
      · simp only [resultOf_rowDirect]
        exact decodeRMAt_eq_rmResult h hmod hrm rfl (by simp)
          (otherOperand_direct _ (h.byteAt_eq 2) (h.byteAt_eq 3))
    · simp only [hrm, if_false, resultOf_rowMod00]
      exact decodeRMAt_eq_rmResult h hmod rfl (lenRM_memory hrm) (by omega)
        (otherOperand_memory _ hrm)
  | memoryDisp8 =>
    rw [hform] at hmod
    rcases rest with _ | ⟨disp, more⟩
    · exact decodeRMAt_eq_truncated h hmod rfl rfl (by simp)
    · simp only [resultOf_rowMod01]
      exact decodeRMAt_eq_rmResult h hmod rfl rfl (by simp)
        (otherOperand_memoryDisp8 _ (h.byteAt_eq 2))
  | memoryDisp16 =>
    rw [hform] at hmod
    rcases rest with _ | ⟨lo, _ | ⟨hi, more⟩⟩
    · exact decodeRMAt_eq_truncated h hmod rfl rfl (by simp)
    · exact decodeRMAt_eq_truncated h hmod rfl rfl (by simp)
    · simp only [resultOf_rowMod10]
      exact decodeRMAt_eq_rmResult h hmod rfl rfl (by simp)
        (otherOperand_memoryDisp16 _ (h.byteAt_eq 2) (h.byteAt_eq 3))

theorem immediateAt_byte {imm : Byte} (himm : S.byteAt (c + 1) = some imm) :
    immediateAt S c 0 = some (s8 imm) := by
  simp [immediateAt, himm]

theorem immediateAt_word {lo hi : Byte} (hlo : S.byteAt (c + 1) = some lo)
    (hhi : S.byteAt (c + 2) = some hi) : immediateAt S c 1 = some (s16 (u16le lo hi)) := by
  simp [immediateAt, hlo, hhi, s16leInt_eq]

/-- The two decoders of format IMM agree, width by width (R65). -/
theorem decodeIMMAt_eq_resultOf (h : S.EndsWith c (b0 :: rest)) :
    decodeIMMAt S c b0 =
      resultOf c S.length (decodeIMM (immWidthBit b0) (immRegField b0) rest) := by
  have hN : S.length = c + (rest.length + 1) := h.length_eq
  have hbit := bits_immWidth_eq_toNat b0
  cases hw : immWidthBit b0 with
  | false =>
    rw [hw] at hbit
    rcases rest with _ | ⟨imm, more⟩
    · rw [decodeIMMAt_of_short (by simp [hbit, hN]), hbit]
      rfl
    · rw [decodeIMMAt_of_complete (by rw [hbit]; exact immediateAt_byte (h.byteAt_eq 1))
        (by simp [hbit, hN]), hbit]
      rfl
  | true =>
    rw [hw] at hbit
    rcases rest with _ | ⟨lo, _ | ⟨hi, more⟩⟩
    · rw [decodeIMMAt_of_short (by simp [hbit, hN]), hbit]
      rfl
    · rw [decodeIMMAt_of_short (by simp [hbit, hN]), hbit]
      rfl
    · rw [decodeIMMAt_of_complete
        (by rw [hbit]; exact immediateAt_word (h.byteAt_eq 1) (h.byteAt_eq 2))
        (by simp [hbit, hN]), hbit]
      rfl

/-- On a canonical stream the spec's `Decode` is the machine's decoder on the bytes from the offset on
(R91, R95). -/
theorem decodeAt_eq_resultOf (hS : S.wf = true) (c : Nat) :
    decodeAt S c = resultOf c S.length (decode (S.bytes.drop c)) := by
  rcases Nat.lt_or_ge c S.length with hlt | hend
  · have h := Memory.endsWith_drop hS hlt.le
    rcases hbs : S.bytes.drop c with _ | ⟨b0, rest⟩
    · rw [List.drop_eq_nil_iff, Memory.length_bytes] at hbs
      omega
    · rw [hbs] at h
      have hb0 : S.byteAt c = some b0 := h.byteAt_eq 0
      simp only [decodeAt, if_neg (Nat.not_le.mpr hlt), hb0, decode]
      cases classify b0 with
      | rmMov =>
        rcases rest with _ | ⟨b1, more⟩
        · exact decodeRMAt_of_no_byte1 h.length_eq.le
        · exact decodeRMAt_eq_resultOf h
      | immMov => exact decodeIMMAt_eq_resultOf h
      | unsupported => rfl
  · rw [List.drop_eq_nil_of_le (by rwa [Memory.length_bytes]), decodeAt, if_pos hend]
    simp [decode, resultOf, Nat.sub_eq_zero_of_le hend]

/-- What is left after the instruction plays no part, so the four bytes that a fetch shows settle the
result (R60). -/
theorem resultOf_decode_take_four (c N : Nat) (bs : List Byte) :
    resultOf c N (decode (bs.take 4)) = resultOf c N (decode bs) := by
  rw [decode_take_four]
  cases decode bs <;> rfl

/-- On a canonical stream the machine's fetch answers what the spec's `Decode` does. -/
theorem resultOf_fetch {s : State} (hS : s.stream.wf = true) :
    resultOf s.cursor s.n s.fetch = decodeAt s.stream s.cursor := by
  rw [decodeAt_eq_resultOf hS, fetch_of_wf hS]
  exact resultOf_decode_take_four _ _ _

end Agreement

/-! A step, by what the spec's `Decode` returns. -/

/-- What a step that answers a next state has done on a canonical stream, in the spec's words (R160): the
run ended normally, or the line that `Decode` gives was emitted, or the fault that it raises was taken. -/
theorem step_next_decodeAt_cases {s t : State} (hS : s.stream.wf = true) (h : step s = .next t) :
    s.status = .run ∧
    ((s.cursor = s.n ∧ t = s.finish) ∨
     (s.cursor ≠ s.n ∧ ∃ m text k, decodeAt s.stream s.cursor = .ok m text k ∧
        t = (s.emit text).advance k) ∨
     (s.cursor ≠ s.n ∧ ∃ f, decodeAt s.stream s.cursor = .fault f ∧ t = s.takeFault f)) := by
  have hfetch := resultOf_fetch hS
  obtain ⟨hrun, ⟨hc, rfl⟩ | ⟨hc, i, rest, -, hf, hexec, -⟩ | ⟨hc, b, hf, rfl⟩ |
    ⟨hc, k, hf, rfl⟩⟩ := step_next_cases h
  · exact ⟨hrun, .inl ⟨hc, rfl⟩⟩
  · rw [exec_eq_retire] at hexec
    cases hexec
    rw [hf] at hfetch
    exact ⟨hrun, .inr (.inl ⟨hc, _, _, _, hfetch.symm, rfl⟩)⟩
  · rw [hf] at hfetch
    exact ⟨hrun, .inr (.inr ⟨hc, _, hfetch.symm, rfl⟩)⟩
  · rw [hf] at hfetch
    exact ⟨hrun, .inr (.inr ⟨hc, _, hfetch.symm, rfl⟩)⟩

/-! The invariant of every state of a run. -/

section Invariant

variable {s : State}

theorem inv_finish (hs : s.Inv) (hrun : s.status = .run) (hend : s.cursor = s.n) : s.finish.Inv where
  streamWf := hs.streamWf
  cursorInStream := hs.cursorInStream
  linesSoFar := hs.linesSoFar
  runNoFault h := nomatch h
  doneAtEnd _ := ⟨hend, hs.runNoFault hrun⟩
  faultIsDecodes h := nomatch h

theorem inv_emit_advance {m : Move} {text : Line} {k : Nat} (hs : s.Inv) (hrun : s.status = .run)
    (hdec : decodeAt s.stream s.cursor = .ok m text k) : ((s.emit text).advance k).Inv where
  streamWf := hs.streamWf
  cursorInStream := by
    obtain ⟨-, -, -, -, hlen⟩ := decodedMovesAreWellFormed _ _ _ _ _ hdec
    exact hlen
  linesSoFar := by
    obtain ⟨ls, hdecodes, hsink⟩ := hs.linesSoFar
    exact ⟨ls ++ [text], hdecodes.oneMore hdec, by simp [hsink]⟩
  runNoFault := hs.runNoFault
  doneAtEnd h := by simp [hrun] at h
  faultIsDecodes h := by simp [hrun] at h

theorem inv_takeFault {f : FaultRecord} (hs : s.Inv) (hne : s.cursor ≠ s.n)
    (hdec : decodeAt s.stream s.cursor = .fault f) : (s.takeFault f).Inv where
  streamWf := hs.streamWf
  cursorInStream := hs.cursorInStream
  linesSoFar := hs.linesSoFar
  runNoFault h := nomatch h
  doneAtEnd h := nomatch h
  faultIsDecodes _ := ⟨Nat.lt_of_le_of_ne hs.cursorInStream hne, f, rfl, hdec⟩

/-- The start of a run on any canonical stream meets the invariant: no instruction is decoded yet. -/
theorem inv_start {S : Memory} (hS : S.wf = true) (name : String) : (State.start S name).Inv where
  streamWf := hS
  cursorInStream := Nat.zero_le _
  linesSoFar := ⟨[], .start, (List.append_nil _).symm⟩
  runNoFault _ := rfl
  doneAtEnd h := nomatch h
  faultIsDecodes h := nomatch h

end Invariant

/-- Settles O49, by what the step did: it ended the run, emitted a line, or took a fault. -/
theorem stepKeepsTheInvariant : Obligations.StepKeepsTheInvariant := by
  intro s t hs h
  obtain ⟨hrun, ⟨hend, rfl⟩ | ⟨-, m, text, k, hdec, rfl⟩ | ⟨hne, f, hdec, rfl⟩⟩ :=
    step_next_decodeAt_cases hs.streamWf h
  · exact inv_finish hs hrun hend
  · exact inv_emit_advance hs hrun hdec
  · exact inv_takeFault hs hne hdec

/-- Settles O48. -/
theorem startMeetsTheInvariant : Obligations.StartMeetsTheInvariant :=
  ⟨fun bs name => inv_start (Memory.wf_ofBytes bs) name, inv_start Memory.wf_nil _⟩

/-- Settles O44, by what the step did; the bounds on the count are those of every decoded move. -/
theorem cursorAdvancesByWholeInstructions : Obligations.CursorAdvancesByWholeInstructions := by
  intro s t hS h
  obtain ⟨hrun, ⟨-, rfl⟩ | ⟨-, m, text, k, hdec, rfl⟩ | ⟨-, f, -, rfl⟩⟩ :=
    step_next_decodeAt_cases hS h
  · exact .inr ⟨nofun, rfl, rfl⟩
  · obtain ⟨-, -, hlow, hhigh, hlen⟩ := decodedMovesAreWellFormed _ _ _ _ _ hdec
    refine .inl ⟨hrun, ⟨text, rfl⟩, hlen, ?_⟩
    simp only [State.advance_cursor, State.emit_cursor]
    omega
  · exact .inr ⟨nofun, rfl, rfl⟩

/-! A decode depends on the instruction's own bytes only (R45). -/

section OwnBytes

variable {S T : Memory} {c : Nat}

theorem otherOperand_congr {mod : Nat} {rm : Fin 8} (width : Width)
    (h : ∀ a, c ≤ a → a < c + lenRM mod rm → T.byteAt a = S.byteAt a) :
    otherOperand T c width mod rm = otherOperand S c width mod rm := by
  have hbyte : ∀ k, k < lenRM mod rm → T.byteAt (c + k) = S.byteAt (c + k) :=
    fun k hk => h _ (by omega) (by omega)
  unfold otherOperand
  unfold lenRM at hbyte
  by_cases hreg : mod = 3
  · simp only [hreg, if_true]
  · by_cases hmem : mod = 0
    · by_cases hdirect : rm = 6
      · simp only [hmem, hdirect] at hbyte ⊢
        rw [hbyte 2 (by decide), hbyte 3 (by decide)]
      · simp [hmem, hdirect]
    · by_cases hdisp8 : mod = 1
      · simp only [hdisp8] at hbyte ⊢
        simp [hbyte 2 (by simp)]
      · simp only [hreg, hmem, hdisp8, if_false, false_and] at hbyte ⊢
        rw [hbyte 2 (by decide), hbyte 3 (by decide)]

theorem immediateAt_congr {w : Nat}
    (h : ∀ a, c ≤ a → a < c + (if w = 0 then 2 else 3) → T.byteAt a = S.byteAt a) :
    immediateAt T c w = immediateAt S c w := by
  unfold immediateAt
  by_cases hw : w = 0
  · simp only [hw, if_true] at h ⊢
    rw [h (c + 1) (by omega) (by omega)]
  · simp only [hw, if_false] at h ⊢
    rw [h (c + 1) (by omega) (by omega), h (c + 2) (by omega) (by omega)]

/-- A canonical stream with a byte at `a` is longer than `a` (R41). -/
theorem Memory.lt_length_of_byteAt {a : Nat} {b : Byte} (hS : S.wf = true)
    (h : S.byteAt a = some b) : a < S.length := by
  rw [Memory.byteAt_of_wf hS] at h
  rw [← Memory.length_bytes]
  exact (List.getElem?_eq_some_iff.mp h).1

/-- A canonical stream that agrees with another on the `k` bytes from `c` on reaches as far as they do. -/
theorem Memory.le_length_of_agree {k : Nat} (hS : S.wf = true) (hT : T.wf = true) (hk : 0 < k)
    (hlen : c + k ≤ S.length) (h : ∀ a, c ≤ a → a < c + k → T.byteAt a = S.byteAt a) :
    c + k ≤ T.length := by
  obtain ⟨b, hb⟩ := Memory.exists_byteAt_of_lt hS (a := c + k - 1) (by omega)
  have hlast := h (c + k - 1) (by omega) (by omega)
  have := Memory.lt_length_of_byteAt hT (hlast.trans hb)
  omega

theorem decodeAt_of_rmMov {b0 : Byte} (hc : c < S.length) (hb0 : S.byteAt c = some b0)
    (hclass : classify b0 = .rmMov) : decodeAt S c = decodeRMAt S c b0 := by
  simp only [decodeAt, if_neg (Nat.not_le.mpr hc), hb0, hclass]

theorem decodeAt_of_immMov {b0 : Byte} (hc : c < S.length) (hb0 : S.byteAt c = some b0)
    (hclass : classify b0 = .immMov) : decodeAt S c = decodeIMMAt S c b0 := by
  simp only [decodeAt, if_neg (Nat.not_le.mpr hc), hb0, hclass]

end OwnBytes

/-- Settles O52: the handler that succeeded on one stream finds the same bytes on the other. -/
theorem decodeDependsOnItsBytesOnly : Obligations.DecodeDependsOnItsBytesOnly := by
  intro S T c k m text hS hT h hagree
  obtain ⟨-, -, hlow, -, hlen⟩ := decodedMovesAreWellFormed _ _ _ _ _ h
  have hlenT := Memory.le_length_of_agree hS hT (by omega) hlen hagree
  obtain ⟨b0, hb0, hhandler⟩ := decodeAt_eq_ok h
  rw [← hagree c (by omega) (by omega)] at hb0
  obtain ⟨hclass, h⟩ | ⟨hclass, h⟩ := hhandler
  · obtain ⟨b1, X, hb1, hX, rfl, rfl, rfl, -⟩ := decodeRMAt_eq_ok h
    rw [← hagree (c + 1) (by omega) (by omega)] at hb1
    rw [← otherOperand_congr _ hagree] at hX
    rw [decodeAt_of_rmMov (by omega) hb0 hclass]
    exact decodeRMAt_of_complete hb1 hX hlenT
  · obtain ⟨v, hv, rfl, rfl, rfl, -⟩ := decodeIMMAt_eq_ok h
    rw [← immediateAt_congr hagree] at hv
    rw [decodeAt_of_immMov (by omega) hb0 hclass]
    exact decodeIMMAt_of_complete hv hlenT

/-! A step, case by case (R160). -/

section StepEquations

variable {s : State}

theorem step_of_done (hs : s.status = .done) : step s = .fault .runIsDone := by
  simp only [step, hs]

theorem step_of_faulted (hs : s.status = .fault) : step s = .fault .runIsFaulted := by
  simp only [step, hs]

theorem step_at_end (hs : s.status = .run) (hc : s.cursor = s.n) : step s = .next s.finish := by
  simp only [step, hs, hc, if_true]

theorem step_of_fetch_ok {i : Instr} {rest : List Byte} (hs : s.status = .run)
    (hc : s.cursor ≠ s.n) (hf : s.fetch = .ok i rest) :
    step s = .next ((s.emit (lineText (moveOf i))).advance i.length) := by
  simp only [step, hs, if_neg hc, hf, exec_eq_retire, retire]

theorem step_of_fetch_unsupported {b : Byte} (hs : s.status = .run) (hc : s.cursor ≠ s.n)
    (hf : s.fetch = .unsupported b) : step s = .next (s.takeUnsupported b) := by
  simp only [step, hs, if_neg hc, hf]

theorem step_of_fetch_truncated {k : Nat} (hs : s.status = .run) (hc : s.cursor ≠ s.n)
    (hf : s.fetch = .truncated k) : step s = .next (s.takeTruncated k) := by
  simp only [step, hs, if_neg hc, hf]

/-- In `RUN` a step always answers a next state (R160). -/
theorem exists_step_of_run (hs : s.status = .run) : ∃ t, step s = .next t := by
  by_cases hc : s.cursor = s.n
  · exact ⟨_, step_at_end hs hc⟩
  · cases hf : s.fetch with
    | ok i rest => exact ⟨_, step_of_fetch_ok hs hc hf⟩
    | unsupported b => exact ⟨_, step_of_fetch_unsupported hs hc hf⟩
    | truncated k => exact ⟨_, step_of_fetch_truncated hs hc hf⟩

end StepEquations

/-- Settles O43, by the status. -/
theorem stepIsEnabledExactlyInRun : Obligations.StepIsEnabledExactlyInRun :=
  fun _ => ⟨step_of_done, step_of_faulted, exists_step_of_run⟩

/-- The state with another input name and other lines written so far. -/
def State.withOutput (s : State) (name : String) (lines : List Line) : State :=
  { s with inputName := name, sink := lines }

/-- Settles O53, by the case of the step: it looks at the status, the cursor and the stream, which the two
states share, and it leaves the sink as it is or adds its line at the end. -/
theorem stepIgnoresEarlierOutput : Obligations.StepIgnoresEarlierOutput := by
  intro s name lines
  change step (s.withOutput name lines) = _
  cases hs : s.status with
  | done => rw [step_of_done hs, step_of_done (s := s.withOutput name lines) hs]
  | fault => rw [step_of_faulted hs, step_of_faulted (s := s.withOutput name lines) hs]
  | run =>
    by_cases hc : s.cursor = s.n
    · rw [step_at_end hs hc, step_at_end (s := s.withOutput name lines) hs hc]
      simp [State.finish, State.withOutput]
    · cases hf : s.fetch with
      | ok i rest =>
        rw [step_of_fetch_ok hs hc hf, step_of_fetch_ok (s := s.withOutput name lines) hs hc hf]
        simp [State.advance, State.emit, State.withOutput]
      | unsupported b =>
        rw [step_of_fetch_unsupported hs hc hf,
          step_of_fetch_unsupported (s := s.withOutput name lines) hs hc hf]
        simp [State.takeUnsupported, State.takeFault, State.withOutput]
      | truncated k =>
        rw [step_of_fetch_truncated hs hc hf,
          step_of_fetch_truncated (s := s.withOutput name lines) hs hc hf]
        simp [State.takeTruncated, State.takeFault, State.withOutput, State.n]

/-! The tables and reset. -/

/-- Settles O25: the three tables are read off at their eight indexes, and an operand's text is the table
entry that its width selects, by definition. -/
theorem nameTables : Obligations.NameTables :=
  ⟨by decide, by decide, by decide, fun _ => rfl, fun _ => rfl, fun _ => ⟨rfl, rfl⟩, fun _ => rfl⟩

/-- Settles O47, from the fields of the start of a run. -/
theorem resetValues : Obligations.ResetValues :=
  ⟨fun S name => ⟨State.start_cursor S name, State.start_status S name, State.start_fault S name,
    State.start_stream S name, State.start_inputName S name, State.start_sink S name⟩, rfl⟩

end Sys2Proof.Machine

/-! SUPPORT. Proofs of the statements on the memory (20_memory.md): a read has a value exactly below the
length (R41), nothing writes the stream (R40), and the bytes that decode are exactly the instruction's own
and the rest (R45). -/

namespace Sys2Proof

/-! The encoder, form by form: the opcode byte from its bits, and the bytes of each row. -/

/-- The opcode byte `100010 d w` of format RM (R61). -/
def rmOpcode (d w : Bool) : Byte := BitVec.ofNat 8 (0x88 + d.toNat * 2 + w.toNat)

/-- A register/memory opcode is made of its direction and width bits and nothing else. -/
theorem rmOpcode_fields : ∀ b : Byte, classify b = .rmMov →
    rmOpcode (dirBit b) (widthBit b) = b := by decide

section Rows

variable (d w : Bool) (reg rm : Fin 8) (b : Byte) (x : Word)

@[simp] theorem encode_rowMod11 :
    encode (rowMod11 d w reg rm) = [rmOpcode d w, modRM 3 reg rm] := by
  cases d <;> cases w <;> rfl

@[simp] theorem encode_rowMod00 :
    encode (rowMod00 d w reg rm) = [rmOpcode d w, modRM 0 reg rm] := by
  cases d <;> cases w <;> rfl

@[simp] theorem encode_rowDirect :
    encode (rowDirect d w reg x) = [rmOpcode d w, modRM 0 reg 6, lowByte x, highByte x] := by
  cases d <;> cases w <;> rfl

@[simp] theorem encode_rowMod01 :
    encode (rowMod01 d w reg rm b) = [rmOpcode d w, modRM 1 reg rm, b] := by
  cases d <;> cases w <;> rfl

@[simp] theorem encode_rowMod10 :
    encode (rowMod10 d w reg rm x) = [rmOpcode d w, modRM 2 reg rm, lowByte x, highByte x] := by
  cases d <;> cases w <;> rfl

@[simp] theorem wf_rowMod11 : (rowMod11 d w reg rm).wf = true := by
  cases d <;> cases w <;> rfl

@[simp] theorem wf_rowMod00 : (rowMod00 d w reg rm).wf = (rm != 6) := by
  cases d <;> cases w <;> rfl

@[simp] theorem wf_rowDirect : (rowDirect d w reg x).wf = true := by
  cases d <;> cases w <;> rfl

@[simp] theorem wf_rowMod01 : (rowMod01 d w reg rm b).wf = true := by
  cases d <;> cases w <;> rfl

@[simp] theorem wf_rowMod10 : (rowMod10 d w reg rm x).wf = true := by
  cases d <;> cases w <;> rfl

end Rows

/-! What decoded is what the encoder gives. -/

section EncodeOfDecode

variable {d w : Bool} {b1 : Byte} {reg : RegIndex} {bs rest : List Byte} {i : Instr}

/-- Format RM, form by form (R63): the instruction holds every bit of byte 1 and of the bytes after it. -/
theorem encode_of_decodeRM (h : decodeRM d w b1 bs = .ok i rest) :
    i.wf = true ∧ rmOpcode d w :: b1 :: bs = encode i ++ rest := by
  have hb1 := modRM_fields b1
  unfold decodeRM at h
  cases hmod : modField b1 with
  | registerDirect =>
    simp only [hmod, AddrMode.code] at h hb1
    cases h
    simpa using hb1.symm
  | memory =>
    simp only [hmod, AddrMode.code] at h hb1
    by_cases hrm : rmField b1 = 6
    · rw [if_pos hrm] at h
      rw [hrm] at hb1
      rcases bs with _ | ⟨lo, _ | ⟨hi, more⟩⟩ <;> cases h
      simpa [lowByte_u16le, highByte_u16le] using hb1.symm
    · rw [if_neg hrm] at h
      cases h
      simpa [hrm] using hb1.symm
  | memoryDisp8 =>
    simp only [hmod, AddrMode.code] at h hb1
    rcases bs with _ | ⟨disp, more⟩ <;> cases h
    simpa using hb1.symm
  | memoryDisp16 =>
    simp only [hmod, AddrMode.code] at h hb1
    rcases bs with _ | ⟨lo, _ | ⟨hi, more⟩⟩ <;> cases h
    simpa [lowByte_u16le, highByte_u16le] using hb1.symm

/-- Format IMM, width by width (R65). -/
theorem encode_of_decodeIMM (h : decodeIMM w reg bs = .ok i rest) :
    i.wf = true ∧ immOpcode w.toNat reg :: bs = encode i ++ rest := by
  cases w with
  | false =>
    rcases bs with _ | ⟨imm, more⟩ <;> cases h
    exact ⟨rfl, rfl⟩
  | true =>
    rcases bs with _ | ⟨lo, _ | ⟨hi, more⟩⟩ <;> cases h
    exact ⟨rfl, by simp [encode, lowByte_u16le, highByte_u16le]⟩

end EncodeOfDecode

/-- Settles O7, by the class of the first byte: each handler gives back the bytes it read, and an opcode
byte is made of the bits that the handler was given. -/
theorem encodeOfDecode : Obligations.EncodeOfDecode := by
  intro bs rest i h
  rcases bs with _ | ⟨b0, bs⟩
  · cases h
  · simp only [decode] at h
    cases hclass : classify b0 with
    | rmMov =>
      simp only [hclass] at h
      rcases bs with _ | ⟨b1, more⟩
      · cases h
      · simpa only [rmOpcode_fields b0 hclass] using encode_of_decodeRM h
    | immMov =>
      simp only [hclass] at h
      simpa only [immOpcode_fields b0 hclass] using encode_of_decodeIMM h
    | unsupported =>
      simp only [hclass] at h
      cases h

end Sys2Proof

namespace Sys2Proof.Machine

/-! The stream: where a read has a value, and that nothing writes it. -/

/-- Settles O46: a canonical stream is its bytes at the indexes from 0 on. -/
theorem readsAreDefinedBelowTheLength : Obligations.ReadsAreDefinedBelowTheLength := by
  refine ⟨fun m a hm => ⟨⟨?_, Memory.exists_byteAt_of_lt hm⟩, Memory.byteAt_of_wf hm a⟩,
    fun bs a => ⟨Memory.wf_ofBytes bs, Memory.byteAt_ofBytes bs a⟩⟩
  rintro ⟨b, hb⟩
  exact Memory.lt_length_of_byteAt hm hb

/-- Settles O21: every instruction retires its move and its length, and so adds the move's line, moves the
cursor by the length and changes nothing else. -/
theorem instructionFrame : Obligations.InstructionFrame := by
  intro i s t h
  rw [exec_eq_retire, retire_eq] at h
  cases h
  exact ⟨rfl, fun _ => rfl, rfl, rfl, rfl, ⟨_, rfl⟩, rfl⟩

/-- No step writes the run's parameters, the stream and the input name (R20, R40). -/
theorem step_keeps_parameters {s t : State} (h : step s = .next t) :
    t.stream = s.stream ∧ t.inputName = s.inputName := by
  obtain ⟨-, ⟨-, rfl⟩ | ⟨-, i, rest, m, -, -, rfl⟩ | ⟨-, b, -, rfl⟩ | ⟨-, k, -, rfl⟩⟩ :=
    step_next_cases h
  all_goals exact ⟨rfl, rfl⟩

/-- Settles O45: an ending, a retired instruction and a taken fault all leave the stream and the name. -/
theorem streamIsNeverWritten : Obligations.StreamIsNeverWritten := by
  intro s t h
  obtain ⟨hstream, hname⟩ := step_keeps_parameters h
  exact ⟨hstream, hname, fun a => by rw [hstream]⟩

end Sys2Proof.Machine

/-! SUPPORT. Proofs of the statements on the encoding (30_encoding.md): decode and encode agree (R61 to
R65), the length function (R66), the map of the first bytes (R70), the grammar of the lines (R73), the
opcode table (R75) and the synonyms (R76). -/

namespace Sys2Proof

/-! The 22 constructors as seven forms: five of format RM, over `d` and `w`, and one of each width of
format IMM (R63, R65). -/

/-- A statement about every instruction is one about each form. -/
theorem Instr.byForm {P : Instr → Prop}
    (mod11 : ∀ d w reg rm, P (rowMod11 d w reg rm))
    (mod00 : ∀ d w reg rm, P (rowMod00 d w reg rm))
    (direct : ∀ d w reg addr, P (rowDirect d w reg addr))
    (mod01 : ∀ d w reg rm disp, P (rowMod01 d w reg rm disp))
    (mod10 : ∀ d w reg rm disp, P (rowMod10 d w reg rm disp))
    (imm8 : ∀ reg imm, P (.movR8Imm8 reg imm))
    (imm16 : ∀ reg imm, P (.movR16Imm16 reg imm)) (i : Instr) : P i := by
  cases i with
  | movRm8R8Mod11 reg rm => exact mod11 false false reg rm
  | movRm8R8Mod00 reg rm => exact mod00 false false reg rm
  | movRm8R8Direct reg addr => exact direct false false reg addr
  | movRm8R8Mod01 reg rm disp => exact mod01 false false reg rm disp
  | movRm8R8Mod10 reg rm disp => exact mod10 false false reg rm disp
  | movRm16R16Mod11 reg rm => exact mod11 false true reg rm
  | movRm16R16Mod00 reg rm => exact mod00 false true reg rm
  | movRm16R16Direct reg addr => exact direct false true reg addr
  | movRm16R16Mod01 reg rm disp => exact mod01 false true reg rm disp
  | movRm16R16Mod10 reg rm disp => exact mod10 false true reg rm disp
  | movR8Rm8Mod11 reg rm => exact mod11 true false reg rm
  | movR8Rm8Mod00 reg rm => exact mod00 true false reg rm
  | movR8Rm8Direct reg addr => exact direct true false reg addr
  | movR8Rm8Mod01 reg rm disp => exact mod01 true false reg rm disp
  | movR8Rm8Mod10 reg rm disp => exact mod10 true false reg rm disp
  | movR16Rm16Mod11 reg rm => exact mod11 true true reg rm
  | movR16Rm16Mod00 reg rm => exact mod00 true true reg rm
  | movR16Rm16Direct reg addr => exact direct true true reg addr
  | movR16Rm16Mod01 reg rm disp => exact mod01 true true reg rm disp
  | movR16Rm16Mod10 reg rm disp => exact mod10 true true reg rm disp
  | movR8Imm8 reg imm => exact imm8 reg imm
  | movR16Imm16 reg imm => exact imm16 reg imm

/-! The decoder on an opcode byte made of its bits. -/

@[simp] theorem classify_rmOpcode : ∀ d w : Bool, classify (rmOpcode d w) = .rmMov := by decide

@[simp] theorem dirBit_rmOpcode : ∀ d w : Bool, dirBit (rmOpcode d w) = d := by decide

@[simp] theorem widthBit_rmOpcode : ∀ d w : Bool, widthBit (rmOpcode d w) = w := by decide

theorem decode_rmOpcode (d w : Bool) (b1 : Byte) (more : List Byte) :
    decode (rmOpcode d w :: b1 :: more) = decodeRM d w b1 more := by
  simp [decode]

section ImmOpcode

variable (reg : RegIndex) (bs : List Byte)

@[simp] theorem classify_immOpcode_zero : classify (immOpcode 0 reg) = .immMov :=
  classify_immOpcode 0 reg

@[simp] theorem classify_immOpcode_one : classify (immOpcode 1 reg) = .immMov :=
  classify_immOpcode 1 reg

@[simp] theorem immWidthBit_immOpcode_zero : immWidthBit (immOpcode 0 reg) = false :=
  immWidthBit_immOpcode 0 reg

@[simp] theorem immWidthBit_immOpcode_one : immWidthBit (immOpcode 1 reg) = true :=
  immWidthBit_immOpcode 1 reg

@[simp] theorem immRegField_immOpcode_zero : immRegField (immOpcode 0 reg) = reg :=
  immRegField_immOpcode 0 reg

@[simp] theorem immRegField_immOpcode_one : immRegField (immOpcode 1 reg) = reg :=
  immRegField_immOpcode 1 reg

theorem decode_immOpcode_zero : decode (immOpcode 0 reg :: bs) = decodeIMM false reg bs := by
  simp [decode]

theorem decode_immOpcode_one : decode (immOpcode 1 reg :: bs) = decodeIMM true reg bs := by
  simp [decode]

end ImmOpcode

/-! Format RM on a mod/reg/rm byte made of its fields, form by form (R63). -/

section DecodeRM

variable (d w : Bool) (reg rm : Fin 8) (b lo hi : Byte) (more : List Byte)

@[simp] theorem regField_modRM_of_lt {mod : Nat} (h : mod < 4) :
    regField (modRM mod reg rm) = reg := regField_modRM ⟨mod, h⟩ reg rm

@[simp] theorem rmField_modRM_of_lt {mod : Nat} (h : mod < 4) :
    rmField (modRM mod reg rm) = rm := rmField_modRM ⟨mod, h⟩ reg rm

theorem decodeRM_mod11 :
    decodeRM d w (modRM 3 reg rm) more = .ok (rowMod11 d w reg rm) more := by
  have hmod : modField (modRM 3 reg rm) = .registerDirect := modField_modRM 3 reg rm
  simp [decodeRM, hmod]

theorem decodeRM_mod00 (hrm : rm ≠ 6) :
    decodeRM d w (modRM 0 reg rm) more = .ok (rowMod00 d w reg rm) more := by
  have hmod : modField (modRM 0 reg rm) = .memory := modField_modRM 0 reg rm
  simp [decodeRM, hmod, hrm]

theorem decodeRM_direct :
    decodeRM d w (modRM 0 reg 6) (lo :: hi :: more) =
      .ok (rowDirect d w reg (u16le lo hi)) more := by
  have hmod : modField (modRM 0 reg 6) = .memory := modField_modRM 0 reg 6
  simp [decodeRM, hmod]

theorem decodeRM_mod01 :
    decodeRM d w (modRM 1 reg rm) (b :: more) = .ok (rowMod01 d w reg rm b) more := by
  have hmod : modField (modRM 1 reg rm) = .memoryDisp8 := modField_modRM 1 reg rm
  simp [decodeRM, hmod]

theorem decodeRM_mod10 :
    decodeRM d w (modRM 2 reg rm) (lo :: hi :: more) =
      .ok (rowMod10 d w reg rm (u16le lo hi)) more := by
  have hmod : modField (modRM 2 reg rm) = .memoryDisp16 := modField_modRM 2 reg rm
  simp [decodeRM, hmod]

end DecodeRM

/-- Settles O6, form by form: the opcode byte gives back its bits, the mod/reg/rm byte its fields, and a
16-bit field is joined from its two bytes. -/
theorem decodeOfEncode : Obligations.DecodeOfEncode := by
  intro i rest
  induction i using Instr.byForm with
  | mod11 d w reg rm =>
    intro _
    simp [decode_rmOpcode, decodeRM_mod11]
  | mod00 d w reg rm =>
    intro hwf
    have hrm : rm ≠ 6 := by simpa using hwf
    simp [decode_rmOpcode, decodeRM_mod00, hrm]
  | direct d w reg addr =>
    intro _
    simp [decode_rmOpcode, decodeRM_direct, u16le_lowByte_highByte]
  | mod01 d w reg rm disp =>
    intro _
    simp [decode_rmOpcode, decodeRM_mod01]
  | mod10 d w reg rm disp =>
    intro _
    simp [decode_rmOpcode, decodeRM_mod10, u16le_lowByte_highByte]
  | imm8 reg imm =>
    intro _
    exact decode_immOpcode_zero reg (imm :: rest)
  | imm16 reg imm =>
    intro _
    simp [encode, decode_immOpcode_one, decodeIMM, u16le_lowByte_highByte]

/-- Settles O5: each word is a fixed list of bytes, which the decoder answers by computation. -/
theorem specimenWordsDecode : Obligations.SpecimenWordsDecode := by
  refine ⟨?_, ?_, ?_, ?_, ?_, ?_, ?_, ?_⟩ <;> decide

/-! The map of the first bytes (R70, R93). -/

/-- Settles O2: the maps by their 256 values, the counts by counting. -/
theorem firstByteMap : Obligations.FirstByteMap :=
  ⟨by decide, by decide +kernel, by decide +kernel, by decide +kernel, by decide⟩

end Sys2Proof

namespace Sys2Proof.Machine

/-! The length function (R66): the class of byte 0 says which of the two formats' lengths it is. -/

section Length

variable {b0 b1 : Byte}

theorem rmField_eq_six_iff : ∀ b : Byte, rmField b = 6 ↔ bits b 2 0 = 6 := by decide

theorem lenRM_eq_ite (b1 : Byte) : lenRM (bits b1 7 6) (rmField b1) =
    if bits b1 7 6 = 3 then 2
    else if bits b1 7 6 = 0 ∧ bits b1 2 0 ≠ 6 then 2
    else if bits b1 7 6 = 0 ∧ bits b1 2 0 = 6 then 4
    else if bits b1 7 6 = 1 then 3 else 4 := by
  simp only [lenRM, rmField_eq_six_iff]
  by_cases hdirect : bits b1 2 0 = 6 <;> simp [hdirect]

/-- The length of an instruction whose first byte is of the given class. -/
def lenOfClass (b0 b1 : Byte) : OpClass → Option Nat
  | .rmMov => some (lenRM (bits b1 7 6) (rmField b1))
  | .immMov => some (if bits b0 3 3 = 0 then 2 else 3)
  | .unsupported => none

theorem lenFromBytes_eq (b0 b1 : Byte) :
    lenFromBytes b0 b1 = lenOfClass b0 b1 (classify b0) := by
  unfold lenFromBytes classify
  by_cases hrm : b0 &&& 0xFC = 0x88
  · simp only [hrm, if_true, lenOfClass, lenRM_eq_ite, apply_ite some]
  · by_cases himm : b0 &&& 0xF0 = 0xB0
    · simp only [hrm, himm, if_true, if_false, lenOfClass, apply_ite some]
    · simp only [hrm, himm, if_false, lenOfClass]

theorem lenFromBytes_eq_none_iff : lenFromBytes b0 b1 = none ↔ classify b0 = .unsupported := by
  rw [lenFromBytes_eq]
  cases classify b0 <;> simp [lenOfClass]

variable {S : Memory} {c k : Nat}

/-- An immediate that was read has its first byte in the stream. -/
theorem exists_byteAt_of_immediateAt {w : Nat} {v : Int} (h : immediateAt S c w = some v) :
    ∃ b1, S.byteAt (c + 1) = some b1 := by
  cases hb1 : S.byteAt (c + 1) with
  | some b1 => exact ⟨b1, rfl⟩
  | none => simp [immediateAt, hb1] at h

/-- The count that the spec's `Decode` reports is the length function of the two bytes at the offset. -/
theorem decodeAt_consumed {m : Move} {text : Line} (h : decodeAt S c = .ok m text k) :
    ∃ b0 b1, S.byteAt c = some b0 ∧ S.byteAt (c + 1) = some b1 ∧ lenFromBytes b0 b1 = some k := by
  obtain ⟨b0, hb0, ⟨hclass, h⟩ | ⟨hclass, h⟩⟩ := decodeAt_eq_ok h
  · obtain ⟨b1, -, hb1, -, -, -, rfl, -⟩ := decodeRMAt_eq_ok h
    exact ⟨b0, b1, hb0, hb1, by rw [lenFromBytes_eq, hclass, lenOfClass]⟩
  · obtain ⟨v, hv, -, -, rfl, -⟩ := decodeIMMAt_eq_ok h
    obtain ⟨b1, hb1⟩ := exists_byteAt_of_immediateAt hv
    exact ⟨b0, b1, hb0, hb1, by rw [lenFromBytes_eq, hclass, lenOfClass]⟩

/-- The machine's decoder consumes the same count, as the spec's `Decode` does on the stream of the same
bytes. -/
theorem lenFromBytes_of_decode {more rest : List Byte} {i : Instr}
    (h : decode (b0 :: b1 :: more) = .ok i rest) : lenFromBytes b0 b1 = some i.length := by
  have hdec := decodeAt_eq_resultOf (Memory.wf_ofBytes (b0 :: b1 :: more)) 0
  rw [Memory.bytes_ofBytes, List.drop_zero, h] at hdec
  obtain ⟨c0, c1, hc0, hc1, hlen⟩ := decodeAt_consumed hdec
  rw [Memory.byteAt_ofBytes] at hc0 hc1
  cases hc0
  cases hc1
  exact hlen

end Length

/-- Settles O4: the bytes split as the encoding and the rest, whose lengths are known, and the cursor moves
as the instruction's frame says. -/
theorem consumedIsTheLengthFunction : Obligations.ConsumedIsTheLengthFunction := by
  refine ⟨fun b0 b1 more rest i h => ⟨lenFromBytes_of_decode h, ?_, fun s t hexec => ?_⟩,
    fun S c k m text => decodeAt_consumed, fun b0 b1 => lenFromBytes_eq_none_iff⟩
  · obtain ⟨-, hbytes⟩ := encodeOfDecode _ _ _ h
    rw [hbytes, List.length_append, length_encode]
  · obtain ⟨-, -, -, -, -, -, hcursor⟩ := instructionFrame i s t hexec
    exact hcursor

/-! A step on bytes that decode. -/

section Step

variable {s : State} {i : Instr} {bs rest : List Byte}

/-- Where the stream from the cursor on begins with bytes that decode, the step runs the instruction
(R160). There is a byte at the cursor, so the run does not end there. -/
theorem step_eq_exec_of_decode (hrun : s.status = .run) (hS : s.stream.wf = true)
    (h : decode (s.stream.bytes.drop s.cursor) = .ok i rest) : step s = exec i s := by
  have hne : s.cursor ≠ s.n := by
    intro hend
    rw [hend, State.n, ← Memory.length_bytes, List.drop_length] at h
    cases h
  have hfetch : s.fetch = .ok i (rest.take (4 - i.length)) := by
    rw [fetch_of_wf hS, maxInstrBytes, decode_take_four, h]
  rw [step_of_fetch_ok hrun hne hfetch, exec_eq_retire]
  rfl

/-- The bytes that stand at the cursor are the first of the rest of the stream. -/
theorem State.Ready.isPrefix_drop (h : s.Ready bs) : bs <+: s.stream.bytes.drop s.cursor := by
  rw [List.prefix_iff_getElem?]
  intro k hk
  rw [List.getElem?_drop, ← Memory.byteAt_of_wf h.streamWf]
  exact h.bytesHere k _ (List.getElem?_eq_getElem hk)

/-- Placed bytes stand at the cursor, wherever it lies (log entry 6). -/
theorem Memory.drop_bytes_load (m : Memory) (a : Nat) (bs : List Byte) :
    (m.load a bs).bytes.drop a = bs ++ m.bytes.drop (a + bs.length) := by
  have hbefore : (m.bytes.take a ++ List.replicate (a - m.length) 0).length = a := by
    rw [List.length_append, List.length_take, List.length_replicate, Memory.length_bytes]
    omega
  rw [Memory.bytes_load, List.append_assoc, List.drop_left' hbefore]

end Step

/-- Settles O23: the bytes at the cursor are the encoding and more, which decode to the instruction. -/
theorem stepRunsTheEncodedInstruction : Obligations.StepRunsTheEncodedInstruction := by
  intro s i hwf hready
  obtain ⟨rest, hbytes⟩ := hready.isPrefix_drop
  have hdec := decodeOfEncode i rest hwf
  rw [hbytes] at hdec
  exact step_eq_exec_of_decode hready.running hready.streamWf hdec

/-- Bytes that decode, with more after them, are the instruction's encoding with more after it. -/
theorem decode_append {bs rest : List Byte} {i : Instr} (h : decode bs = .ok i rest)
    (more : List Byte) : decode (bs ++ more) = .ok i (rest ++ more) := by
  obtain ⟨hwf, rfl⟩ := encodeOfDecode _ _ _ h
  rw [List.append_assoc]
  exact decodeOfEncode i _ hwf

theorem decode_of_decodeTableWord {nbits w : Nat} {i : Instr} (h : decodeTableWord nbits w = some i) :
    ∃ rest, decode (tableBytes nbits w) = .ok i rest := by
  unfold decodeTableWord at h
  split at h
  next j rest hdec => cases h; exact ⟨rest, hdec⟩
  · cases h
  · cases h

/-- Settles O24: the placed bytes stand at the cursor of a canonical stream and decode as the word does. -/
theorem placedWordRunsNext : Obligations.PlacedWordRunsNext := by
  intro s nbits w i h
  obtain ⟨rest, hdec⟩ := decode_of_decodeTableWord h
  have hplaced := decode_append hdec (s.stream.bytes.drop (s.cursor + (tableBytes nbits w).length))
  rw [← Memory.drop_bytes_load] at hplaced
  exact step_eq_exec_of_decode (State.loadAtCursor_status _ _) (Memory.wf_load _ _ _) hplaced

end Sys2Proof.Machine

namespace Sys2Proof.Machine

/-! The move and the length of each form. -/

section Rows

variable (d w : Bool) (reg rm : Fin 8) (b : Byte) (x : Word)

@[simp] theorem moveOf_rowMod11 :
    moveOf (rowMod11 d w reg rm) = movOf d (regOperand w reg) (regOperand w rm) := by
  cases d <;> cases w <;> rfl

@[simp] theorem moveOf_rowMod00 :
    moveOf (rowMod00 d w reg rm) = movOf d (regOperand w reg) (memBase rm) := by
  cases d <;> cases w <;> rfl

@[simp] theorem moveOf_rowDirect :
    moveOf (rowDirect d w reg x) = movOf d (regOperand w reg) (memDirect x) := by
  cases d <;> cases w <;> rfl

@[simp] theorem moveOf_rowMod01 :
    moveOf (rowMod01 d w reg rm b) = movOf d (regOperand w reg) (memDisp8 rm b) := by
  cases d <;> cases w <;> rfl

@[simp] theorem moveOf_rowMod10 :
    moveOf (rowMod10 d w reg rm x) = movOf d (regOperand w reg) (memDisp16 rm x) := by
  cases d <;> cases w <;> rfl

@[simp] theorem length_rowMod11 : (rowMod11 d w reg rm).length = 2 := by
  cases d <;> cases w <;> rfl

@[simp] theorem length_rowMod00 : (rowMod00 d w reg rm).length = 2 := by
  cases d <;> cases w <;> rfl

@[simp] theorem length_rowDirect : (rowDirect d w reg x).length = 4 := by
  cases d <;> cases w <;> rfl

@[simp] theorem length_rowMod01 : (rowMod01 d w reg rm b).length = 3 := by
  cases d <;> cases w <;> rfl

@[simp] theorem length_rowMod10 : (rowMod10 d w reg rm x).length = 4 := by
  cases d <;> cases w <;> rfl

end Rows

/-! Synonyms (R76). -/

/-- An instruction's line depends on its move only. -/
theorem sameLine_of_moveOf_eq {i j : Instr} (h : moveOf i = moveOf j) : SameLine i j :=
  fun s => ⟨_, _, exec_eq_retire i s, exec_eq_retire j s, by simp [h]⟩

theorem memDisp8_zero (row : EaRow) : memDisp8 row 0 = memBase row := rfl

theorem memDisp16_zero (row : EaRow) : memDisp16 row 0 = memBase row := rfl

/-- A displacement that fits 8 bits is the same operand at either width. -/
theorem memDisp16_signExtend (row : EaRow) (b : Byte) :
    memDisp16 row (b.signExtend 16) = memDisp8 row b := by
  rw [memDisp16, memDisp8, s16_toInt, s8_toInt, BitVec.toInt_signExtend_of_le (by decide)]

theorem otherDirection_ne_and_exec_eq {i j : Instr} (h : i.otherDirection = some j) :
    i ≠ j ∧ ∀ s : State, exec i s = exec j s := by
  cases i <;> cases h <;> exact ⟨nofun, fun _ => rfl⟩

/-- Settles O35, each kind by the equality of the two instructions' moves. -/
theorem synonymousEncodings : Obligations.SynonymousEncodings := by
  refine ⟨fun i j => otherDirection_ne_and_exec_eq, fun d w reg row => ⟨?_, fun _ => ?_⟩,
    fun d w reg row b => ?_⟩
  · exact sameLine_of_moveOf_eq <| by
      rw [moveOf_rowMod01, moveOf_rowMod10, memDisp8_zero, memDisp16_zero]
  · exact sameLine_of_moveOf_eq <| by rw [moveOf_rowMod00, moveOf_rowMod01, memDisp8_zero]
  · exact sameLine_of_moveOf_eq <| by
      rw [moveOf_rowMod01, moveOf_rowMod10, memDisp16_signExtend]

/-! The address text, by the sign of the displacement (R142). -/

section AddrText

variable (row : EaRow) {disp : Int}

theorem addrText_zero : addrText (.baseDisp row 0) = eaBase row := rfl

theorem addrText_of_pos (h : 0 < disp) :
    addrText (.baseDisp row disp) = eaBase row ++ " + " ++ dec disp.natAbs := by
  rw [addrText, if_neg h.ne', if_pos h]

theorem addrText_of_neg (h : disp < 0) :
    addrText (.baseDisp row disp) = eaBase row ++ " - " ++ dec disp.natAbs := by
  rw [addrText, if_neg h.ne, if_neg h.not_gt]

theorem sdec_of_nonneg {v : Int} (h : 0 ≤ v) : sdec v = dec v.natAbs := by
  rw [sdec, if_pos h]

theorem sdec_of_neg {v : Int} (h : v < 0) : sdec v = "-" ++ dec v.natAbs := by
  rw [sdec, if_neg (not_le.mpr h)]

end AddrText

/-! The grammar (R73). -/

theorem dec_isNumberIn {lo hi n : Nat} (hlo : lo ≤ n) (hhi : n ≤ hi) : IsNumberIn lo hi (dec n) :=
  ⟨dec_isNumber n, by rwa [digitsValue_dec], by rwa [digitsValue_dec]⟩

theorem isReg8_reg8Name : ∀ i : RegIndex, IsReg8 (reg8Name i) := by
  unfold IsReg8; decide

theorem isReg16_reg16Name : ∀ i : RegIndex, IsReg16 (reg16Name i) := by
  unfold IsReg16; decide

theorem isBase_eaBase : ∀ row : EaRow, IsBase (eaBase row) := by
  unfold IsBase; decide

/-- A memory operand in range is a `mem` of the grammar, by the sign of its displacement. -/
theorem isMem_of_wf {e : EAExpr} (h : e.wf = true) : IsMem (operandText (.mem e)) := by
  cases e with
  | direct addr =>
    have hrange : addr ≤ 65535 := by simpa [EAExpr.wf] using h
    exact .inr (.inr (.inr ⟨dec addr, dec_isNumberIn (Nat.zero_le _) hrange, rfl⟩))
  | baseDisp row disp =>
    have hrange : -32768 ≤ disp ∧ disp ≤ 32767 := by simpa [EAExpr.wf] using h
    have hbase := isBase_eaBase row
    rcases lt_trichotomy disp 0 with hneg | rfl | hpos
    · refine .inr (.inr (.inl ⟨_, _, hbase, dec_isNumberIn (n := disp.natAbs) ?_ ?_, ?_⟩))
      · omega
      · omega
      · rw [operandText, addrText_of_neg row hneg]
    · exact .inl ⟨_, hbase, rfl⟩
    · refine .inr (.inl ⟨_, _, hbase, dec_isNumberIn (n := disp.natAbs) ?_ ?_, ?_⟩)
      · omega
      · omega
      · rw [operandText, addrText_of_pos row hpos]

/-- A number from `-below` to `above` is an `imm` of the grammar, by its sign. -/
theorem isImm_sdec {below above : Nat} {v : Int} (hlow : -(below : Int) ≤ v) (hhigh : v ≤ above) :
    IsImm below above (sdec v) := by
  rcases lt_or_ge v 0 with hneg | hnonneg
  · exact .inr ⟨_, dec_isNumberIn (by omega) (by omega), sdec_of_neg hneg⟩
  · rw [sdec_of_nonneg hnonneg]
    exact .inl (dec_isNumberIn (Nat.zero_le _) (by omega))

theorem memDirect_wf (addr : Word) : (EAExpr.direct addr.toNat).wf = true := by
  have := addr.isLt
  simp only [EAExpr.wf, decide_eq_true_eq]
  omega

theorem baseDisp_s16_wf (row : EaRow) (x : Word) : (EAExpr.baseDisp row (s16 x)).wf = true := by
  simpa [EAExpr.wf] using s16_range x

section Lines

variable (d w : Bool) (reg : RegIndex)

theorem isRMLine_reg (rm : RegIndex) :
    IsRMLine (lineText (movOf d (regOperand w reg) (regOperand w rm))) := by
  refine ⟨_, _, rfl, ?_⟩
  cases w with
  | false => cases d <;> exact .inl ⟨isReg8_reg8Name _, isReg8_reg8Name _⟩
  | true => cases d <;> exact .inr (.inl ⟨isReg16_reg16Name _, isReg16_reg16Name _⟩)

theorem isReg_regOperand :
    IsReg8 (operandText (regOperand w reg)) ∨ IsReg16 (operandText (regOperand w reg)) := by
  cases w with
  | false => exact .inl (isReg8_reg8Name reg)
  | true => exact .inr (isReg16_reg16Name reg)

theorem isRMLine_mem {e : EAExpr} (he : e.wf = true) :
    IsRMLine (lineText (movOf d (regOperand w reg) (.mem e))) := by
  refine ⟨_, _, rfl, ?_⟩
  cases d with
  | false => exact .inr (.inr (.inr ⟨isMem_of_wf he, isReg_regOperand w reg⟩))
  | true => exact .inr (.inr (.inl ⟨isReg_regOperand w reg, isMem_of_wf he⟩))

end Lines

/-- The line of an instruction is in the grammar of its format. -/
theorem lineText_moveOf_grammar (i : Instr) :
    (i.isRM = true → IsRMLine (lineText (moveOf i))) ∧
      (i.isRM = false → IsIMMLine (lineText (moveOf i))) := by
  induction i using Instr.byForm with
  | mod11 d w reg rm => simp [Instr.isRM, isRMLine_reg]
  | mod00 d w reg rm =>
    simpa [Instr.isRM, memBase] using isRMLine_mem d w reg (baseDisp_zero_wf rm)
  | direct d w reg addr =>
    simpa [Instr.isRM, memDirect] using isRMLine_mem d w reg (memDirect_wf addr)
  | mod01 d w reg rm disp =>
    simpa [Instr.isRM, memDisp8] using isRMLine_mem d w reg (baseDisp_s8_wf rm disp)
  | mod10 d w reg rm disp =>
    simpa [Instr.isRM, memDisp16] using isRMLine_mem d w reg (baseDisp_s16_wf rm disp)
  | imm8 reg imm =>
    obtain ⟨hlow, hhigh⟩ := s8_range imm
    refine ⟨by simp [Instr.isRM, encode], fun _ => ⟨_, _, rfl, .inl ⟨?_, ?_⟩⟩⟩
    · exact isReg8_reg8Name reg
    · exact isImm_sdec hlow hhigh
  | imm16 reg imm =>
    obtain ⟨hlow, hhigh⟩ := s16_range imm
    refine ⟨by simp [Instr.isRM, encode], fun _ => ⟨_, _, rfl, .inr ⟨?_, ?_⟩⟩⟩
    · exact isReg16_reg16Name reg
    · exact isImm_sdec hlow hhigh

/-- Settles O32: the one line that an instruction adds is that of its move. -/
theorem linesFollowTheGrammar : Obligations.LinesFollowTheGrammar := by
  intro i s t h
  rw [exec_eq_retire, retire_eq] at h
  cases h
  exact ⟨_, rfl, lineText_moveOf_grammar i⟩

end Sys2Proof.Machine

namespace Sys2Proof.Machine

/-! The line determines the move. An operand's text is taken apart into its decimal digits, which give the
magnitude of its number, and its other characters, its marks, which give all the rest: the operand's shape.
There are 43 shapes, and they have different marks. -/

/-- The decimal digits of a text, in order. -/
def digitsOf (t : String) : List Char := t.toList.filter Char.isDigit

/-- The characters of a text that are no decimal digits, in order. -/
def marksOf (t : String) : List Char := t.toList.filter (fun c => !c.isDigit)

@[simp] theorem digitsOf_append (t u : String) : digitsOf (t ++ u) = digitsOf t ++ digitsOf u := by
  simp [digitsOf]

@[simp] theorem marksOf_append (t u : String) : marksOf (t ++ u) = marksOf t ++ marksOf u := by
  simp [marksOf]

theorem isDigit_of_isNumber {t : String} (h : IsNumber t) : ∀ c ∈ t.toList, c.isDigit = true := by
  have hdigit : ∀ c ∈ "0123456789".toList, c.isDigit = true := by simp
  have hnonzero : ∀ c ∈ "123456789".toList, c.isDigit = true := by simp
  obtain rfl | ⟨c, cs, rfl, hc, hcs⟩ := h
  · simp
  · rw [String.toList_ofList]
    exact List.forall_mem_cons.mpr ⟨hnonzero c hc, fun d hd => hdigit d (hcs d hd)⟩

@[simp] theorem digitsOf_dec (n : Nat) : digitsOf (dec n) = (dec n).toList :=
  List.filter_eq_self.mpr (isDigit_of_isNumber (dec_isNumber n))

@[simp] theorem marksOf_dec (n : Nat) : marksOf (dec n) = [] := by
  rw [marksOf, List.filter_eq_nil_iff]
  intro c hc
  simp [isDigit_of_isNumber (dec_isNumber n) c hc]

@[simp] theorem digitsOf_eaBase : ∀ row : EaRow, digitsOf (eaBase row) = [] := by decide

theorem digitsOf_reg8Name : ∀ i : RegIndex, digitsOf (reg8Name i) = [] := by decide

theorem digitsOf_reg16Name : ∀ i : RegIndex, digitsOf (reg16Name i) = [] := by decide

@[simp] theorem digitsOf_regText (r : RegRef) : digitsOf (regText r) = [] := by
  obtain ⟨width, i⟩ := r
  cases width with
  | byte => exact digitsOf_reg8Name i
  | word => exact digitsOf_reg16Name i

/-- The punctuation of an operand and a line has no digits. -/
theorem digitsOf_punctuation :
    ∀ t ∈ ["[", "]", " + ", " - ", "-"], digitsOf t = [] := by decide

/-- An operand with every number replaced by one of the same sign: -1, 0 or 1 for a displacement, -1 or 0
for an immediate, 0 for an address. -/
def shape : Operand → Operand
  | .reg r => .reg r
  | .mem (.baseDisp row disp) => .mem (.baseDisp row disp.sign)
  | .mem (.direct _) => .mem (.direct 0)
  | .imm v => .imm (if v < 0 then -1 else 0)

/-- The magnitude of the number in an operand, 0 for a register. -/
def magnitude : Operand → Nat
  | .reg _ => 0
  | .mem (.baseDisp _ disp) => disp.natAbs
  | .mem (.direct addr) => addr
  | .imm v => v.natAbs

/-- The operand of a given shape and magnitude. -/
def withMagnitude : Operand → Nat → Operand
  | .reg r, _ => .reg r
  | .mem (.baseDisp row sign), k => .mem (.baseDisp row (sign * k))
  | .mem (.direct _), k => .mem (.direct k)
  | .imm sign, k => .imm (if sign < 0 then -k else k)

/-- An operand is put together from its shape and its magnitude. -/
theorem withMagnitude_shape_magnitude (o : Operand) : withMagnitude (shape o) (magnitude o) = o := by
  cases o with
  | reg r => rfl
  | mem e =>
    cases e with
    | baseDisp row disp => simp [shape, magnitude, withMagnitude, Int.sign_mul_abs]
    | direct addr => rfl
  | imm v =>
    rcases lt_or_ge v 0 with hneg | hnonneg
    · simp [shape, magnitude, withMagnitude, hneg, Int.ofNat_natAbs_of_nonpos hneg.le]
    · simp [shape, magnitude, withMagnitude, not_lt.mpr hnonneg, Int.natAbs_of_nonneg hnonneg]

/-- The marks of an operand are those of its shape. -/
theorem marksOf_operandText (o : Operand) :
    marksOf (operandText o) = marksOf (operandText (shape o)) := by
  cases o with
  | reg r => rfl
  | mem e =>
    cases e with
    | direct addr => simp [operandText, shape, addrText]
    | baseDisp row disp =>
      rcases lt_trichotomy disp 0 with hneg | rfl | hpos
      · have hsign : disp.sign < 0 := Int.sign_neg_iff.mpr hneg
        simp [operandText, shape, addrText_of_neg, hneg, hsign]
      · rfl
      · have hsign : 0 < disp.sign := Int.sign_pos_iff.mpr hpos
        simp [operandText, shape, addrText_of_pos, hpos, hsign]
  | imm v =>
    rcases lt_or_ge v 0 with hneg | hnonneg
    · simp [operandText, shape, hneg, sdec_of_neg]
    · simp [operandText, shape, not_lt.mpr hnonneg, sdec_of_nonneg hnonneg, sdec_of_nonneg]

/-- The digits of an operand are the numeral of its magnitude, or there are none where that is 0. -/
theorem digitsValue_digitsOf_operandText (o : Operand) :
    digitsValue (String.ofList (digitsOf (operandText o))) = magnitude o := by
  have hpunctuation := digitsOf_punctuation
  simp only [List.forall_mem_cons] at hpunctuation
  obtain ⟨hopen, hclose, hplus, hminus, hsign, -⟩ := hpunctuation
  cases o with
  | reg r => simp [operandText, magnitude, digitsValue]
  | mem e =>
    cases e with
    | direct addr =>
      simp [operandText, magnitude, addrText, hopen, hclose, digitsValue_dec]
    | baseDisp row disp =>
      rcases lt_trichotomy disp 0 with hneg | rfl | hpos
      · simp [operandText, magnitude, addrText_of_neg, hneg, hopen, hclose, hminus, digitsValue_dec]
      · simp [operandText, magnitude, addrText_zero, hopen, hclose, digitsValue]
      · simp [operandText, magnitude, addrText_of_pos, hpos, hopen, hclose, hplus, digitsValue_dec]
  | imm v =>
    rcases lt_or_ge v 0 with hneg | hnonneg
    · simp [operandText, magnitude, sdec_of_neg, hneg, hsign, digitsValue_dec]
    · simp [operandText, magnitude, sdec_of_nonneg hnonneg, digitsValue_dec]

/-- The shapes that a register index or a row of the base table has. -/
def shapesAt (i : Fin 8) : List Operand :=
  [.reg ⟨.byte, i⟩, .reg ⟨.word, i⟩, .mem (.baseDisp i (-1)), .mem (.baseDisp i 0),
   .mem (.baseDisp i 1)]

/-- All the shapes. -/
def shapes : List Operand :=
  [.mem (.direct 0), .imm (-1), .imm 0] ++ (List.finRange 8).flatMap shapesAt

theorem mem_shapes_of_mem_shapesAt {i : Fin 8} {o : Operand} (h : o ∈ shapesAt i) : o ∈ shapes :=
  List.mem_append_right _ (List.mem_flatMap.mpr ⟨i, List.mem_finRange i, h⟩)

theorem shape_mem_shapes (o : Operand) : shape o ∈ shapes := by
  cases o with
  | reg r =>
    obtain ⟨width, i⟩ := r
    refine mem_shapes_of_mem_shapesAt (i := i) ?_
    cases width <;> simp [shape, shapesAt]
  | mem e =>
    cases e with
    | direct addr => simp [shape, shapes]
    | baseDisp row disp =>
      refine mem_shapes_of_mem_shapesAt (i := row) ?_
      obtain h | h | h := disp.sign_trichotomy <;> simp [shape, shapesAt, h]
  | imm v =>
    rcases lt_or_ge v 0 with hneg | hnonneg
    · simp [shape, shapes, hneg]
    · simp [shape, shapes, not_lt.mpr hnonneg]

/-- Different shapes have different marks. -/
theorem nodup_marks_shapes : (shapes.map (fun o => marksOf (operandText o))).Nodup := by decide

/-- No shape has a comma in its text. -/
theorem comma_notMem_marks_shapes : ∀ o ∈ shapes, ',' ∉ marksOf (operandText o) := by decide

/-- Different operands have different texts. -/
theorem operandText_injective : Function.Injective operandText := by
  intro o o' h
  have hshape : shape o = shape o' := by
    refine List.inj_on_of_nodup_map nodup_marks_shapes (shape_mem_shapes o) (shape_mem_shapes o') ?_
    rw [← marksOf_operandText, ← marksOf_operandText, h]
  have hmagnitude : magnitude o = magnitude o' := by
    rw [← digitsValue_digitsOf_operandText, ← digitsValue_digitsOf_operandText, h]
  rw [← withMagnitude_shape_magnitude o, ← withMagnitude_shape_magnitude o', hshape, hmagnitude]

theorem comma_notMem_operandText (o : Operand) : ',' ∉ (operandText o).toList := by
  intro hcomma
  have hmark : ',' ∈ marksOf (operandText o) := List.mem_filter.mpr ⟨hcomma, by decide⟩
  rw [marksOf_operandText] at hmark
  exact comma_notMem_marks_shapes _ (shape_mem_shapes o) hmark

/-- Different moves have different lines: the one comma tells where the destination ends. -/
theorem lineText_injective : Function.Injective lineText := by
  rintro ⟨dst, src⟩ ⟨dst', src'⟩ h
  have hchars : (operandText dst).toList ++ ',' :: (' ' :: (operandText src).toList) =
      (operandText dst').toList ++ ',' :: (' ' :: (operandText src').toList) := by
    simpa [lineText] using congrArg String.toList h
  rw [List.append_cons_inj_of_notMem (comma_notMem_operandText dst)
    (by simpa using comma_notMem_operandText src)] at hchars
  obtain ⟨hdst, -, hsrc⟩ := hchars
  rw [operandText_injective (String.toList_inj.mp hdst),
    operandText_injective (String.toList_inj.mp (List.cons.inj hsrc).2)]

/-! The encodings of a move: the direction, the move and the length tell the instruction. -/

/-- The instruction of the given length that moves between a register and a memory operand, the register
being the destination where `d` is set (R63, R109). -/
def memInstr (d : Bool) (r : RegRef) (k : Nat) : EAExpr → Instr
  | .direct addr => rowDirect d (r.width == .word) r.index (BitVec.ofNat 16 addr)
  | .baseDisp row disp =>
    if k = 2 then rowMod00 d (r.width == .word) r.index row
    else if k = 3 then rowMod01 d (r.width == .word) r.index row (BitVec.ofInt 8 disp)
    else rowMod10 d (r.width == .word) r.index row (BitVec.ofInt 16 disp)

/-- The instruction that loads a register with an immediate. -/
def immInstr (r : RegRef) (v : Int) : Instr :=
  match r.width with
  | .byte => .movR8Imm8 r.index (BitVec.ofInt 8 v)
  | .word => .movR16Imm16 r.index (BitVec.ofInt 16 v)

/-- The instruction of a move and a length; only between two registers is the direction free. -/
def instrOf (d : Bool) : Move → Nat → Option Instr
  | ⟨.reg dst, .reg src⟩, _ =>
    some (if d then rowMod11 true (dst.width == .word) dst.index src.index
      else rowMod11 false (dst.width == .word) src.index dst.index)
  | ⟨.reg r, .mem e⟩, k => some (memInstr true r k e)
  | ⟨.mem e, .reg r⟩, k => some (memInstr false r k e)
  | ⟨.reg r, .imm v⟩, _ => some (immInstr r v)
  | ⟨.mem _, .mem _⟩, _ => none
  | ⟨.mem _, .imm _⟩, _ => none
  | ⟨.imm _, _⟩, _ => none

theorem widthOfFlag_beq_word (w : Bool) : (widthOfFlag w == Width.word) = w := by
  cases w <;> rfl

theorem instrOf_movOf_reg (d w : Bool) (reg rm : RegIndex) (k : Nat) :
    instrOf d (movOf d (regOperand w reg) (regOperand w rm)) k = some (rowMod11 d w reg rm) := by
  cases d <;> simp [movOf, regOperand, instrOf, widthOfFlag_beq_word]

theorem instrOf_movOf_mem (d d' w : Bool) (reg : RegIndex) (e : EAExpr) (k : Nat) :
    instrOf d' (movOf d (regOperand w reg) (.mem e)) k =
      some (memInstr d ⟨widthOfFlag w, reg⟩ k e) := by
  cases d <;> rfl

theorem ofInt_s8 (b : Byte) : BitVec.ofInt 8 (s8 b) = b := by
  rw [s8_toInt, BitVec.ofInt_toInt]

theorem ofInt_s16 (x : Word) : BitVec.ofInt 16 (s16 x) = x := by
  rw [s16_toInt, BitVec.ofInt_toInt]

theorem instrOf_regOperand_imm8 (d : Bool) (reg : RegIndex) (imm : Byte) (k : Nat) :
    instrOf d ⟨regOperand false reg, .imm (s8 imm)⟩ k = some (.movR8Imm8 reg imm) := by
  simp [regOperand, widthOfFlag, instrOf, immInstr, ofInt_s8]

theorem instrOf_regOperand_imm16 (d : Bool) (reg : RegIndex) (imm : Word) (k : Nat) :
    instrOf d ⟨regOperand true reg, .imm (s16 imm)⟩ k = some (.movR16Imm16 reg imm) := by
  simp [regOperand, widthOfFlag, instrOf, immInstr, ofInt_s16]

/-- Every instruction is the one of its move and length, for one of the directions. -/
theorem exists_instrOf (i : Instr) : ∃ d, instrOf d (moveOf i) i.length = some i := by
  induction i using Instr.byForm with
  | mod11 d w reg rm => exact ⟨d, by rw [moveOf_rowMod11, instrOf_movOf_reg]⟩
  | mod00 d w reg rm =>
    exact ⟨d, by simp [memBase, instrOf_movOf_mem, memInstr, widthOfFlag_beq_word]⟩
  | direct d w reg addr =>
    exact ⟨d, by simp [memDirect, instrOf_movOf_mem, memInstr, widthOfFlag_beq_word]⟩
  | mod01 d w reg rm disp =>
    exact ⟨d, by simp [memDisp8, instrOf_movOf_mem, memInstr, widthOfFlag_beq_word, ofInt_s8]⟩
  | mod10 d w reg rm disp =>
    exact ⟨d, by simp [memDisp16, instrOf_movOf_mem, memInstr, widthOfFlag_beq_word, ofInt_s16]⟩
  | imm8 reg imm =>
    exact ⟨false, by rw [moveOf, immOperand8, instrOf_regOperand_imm8]⟩
  | imm16 reg imm =>
    exact ⟨false, by rw [moveOf, immOperand16, instrOf_regOperand_imm16]⟩

theorem otherDirection_rowMod11 (d w : Bool) (reg rm : RegIndex) :
    (rowMod11 d w reg rm).otherDirection = some (rowMod11 (!d) w rm reg) := by
  cases d <;> cases w <;> rfl

/-- The direction plays no part, except between two registers. -/
theorem instrOf_eq_or_reg (d d' : Bool) (m : Move) (k : Nat) :
    instrOf d m k = instrOf d' m k ∨ ∃ dst src, m = ⟨.reg dst, .reg src⟩ := by
  obtain ⟨dst | dst | dst, src | src | src⟩ := m
  case reg.reg => exact .inr ⟨dst, src, rfl⟩
  all_goals exact .inl rfl

/-- Two instructions of one move and one length are equal or the two directions of a register-direct
move. -/
theorem eq_or_otherDirection_of_instrOf {d d' : Bool} {m : Move} {k : Nat} {i j : Instr}
    (hi : instrOf d m k = some i) (hj : instrOf d' m k = some j) :
    i = j ∨ i.otherDirection = some j := by
  obtain hfree | ⟨dst, src, rfl⟩ := instrOf_eq_or_reg d d' m k
  · exact .inl (Option.some.inj (hi.symm.trans (hfree.trans hj)))
  · cases hi
    cases hj
    cases d <;> cases d' <;> simp [otherDirection_rowMod11]

/-- Settles O36: the line gives back the move and the cursor the length, and these tell the instruction up
to the direction of a register-direct move. -/
theorem sameEffectOnlyForOtherDirection : Obligations.SameEffectOnlyForOtherDirection := by
  intro i j s t _ _ hi hj
  rw [exec_eq_retire, retire_eq] at hi hj
  have heffect := hi.trans hj.symm
  simp only [Host.Outcome.next.injEq, State.mk.injEq, List.append_cancel_left_eq, List.cons.injEq,
    and_true, Nat.add_left_cancel_iff, true_and] at heffect
  obtain ⟨hlength, hline⟩ := heffect
  obtain ⟨d, hd⟩ := exists_instrOf i
  obtain ⟨d', hd'⟩ := exists_instrOf j
  rw [← lineText_injective hline, ← hlength] at hd'
  exact eq_or_otherDirection_of_instrOf hd hd'

end Sys2Proof.Machine

namespace Sys2Proof.Machine

/-! The opcode table (R75). The four register/memory opcodes have the same five rows: each tests byte 0 for
the opcode and some bits of byte 1, by byte halves of the key. -/

/-- What a row of a register/memory opcode tests of byte 1: its mask, its pattern and whether it excludes
`rm` = 110; and the row's length. -/
structure FormTest where
  mask : Byte
  pattern : Byte
  excludesDirect : Bool
  length : Nat

/-- Whether byte 1 passes. -/
def FormTest.hits (f : FormTest) (b1 : Byte) : Bool :=
  (b1 &&& f.mask == f.pattern) && !(f.excludesDirect && b1 &&& 7 == 6)

/-- The row of the table for an opcode and a form. -/
def FormTest.row (op : Byte) (f : FormTest) : TableRow where
  keyBits := 16
  pattern := op.toNat * 256 + f.pattern.toNat
  mask := 0xFF00 + f.mask.toNat
  exclude := if f.excludesDirect then some (0x0007, 0x0006) else none
  length := f.length

/-- `mod` = 11 (R63, R75). -/
def mod11Test : FormTest := ⟨0xC0, 0xC0, false, 2⟩

/-- `mod` = 00 with `rm` not 110 (R63, R75). -/
def mod00Test : FormTest := ⟨0xC0, 0x00, true, 2⟩

/-- `mod` = 00 with `rm` = 110 (R63, R75). -/
def directTest : FormTest := ⟨0xC7, 0x06, false, 4⟩

/-- `mod` = 01 (R63, R75). -/
def mod01Test : FormTest := ⟨0xC0, 0x40, false, 3⟩

/-- `mod` = 10 (R63, R75). -/
def mod10Test : FormTest := ⟨0xC0, 0x80, false, 4⟩

/-- The five forms in the table's order. -/
def formTests : List FormTest := [mod11Test, mod00Test, directTest, mod01Test, mod10Test]

theorem opcodeTable_eq : opcodeTable =
    formTests.map (FormTest.row 0x88) ++ formTests.map (FormTest.row 0x89) ++
    formTests.map (FormTest.row 0x8A) ++ formTests.map (FormTest.row 0x8B) ++ immRows := rfl

/-- A mask on a 16-bit number is a mask on each of its bytes. -/
theorem land_two_bytes (hi lo maskHi maskLo : Byte) :
    (hi.toNat * 256 + lo.toNat) &&& (maskHi.toNat * 256 + maskLo.toNat) =
      (hi &&& maskHi).toNat * 256 + (lo &&& maskLo).toNat := by
  have hlo := lo.isLt
  have hmaskLo := maskLo.isLt
  have hdiv := @Nat.and_div_two_pow (hi.toNat * 256 + lo.toNat) (maskHi.toNat * 256 + maskLo.toNat) 8
  have hmod := @Nat.and_mod_two_pow (hi.toNat * 256 + lo.toNat) (maskHi.toNat * 256 + maskLo.toNat) 8
  rw [show (hi.toNat * 256 + lo.toNat) / 2 ^ 8 = hi.toNat by omega,
    show (maskHi.toNat * 256 + maskLo.toNat) / 2 ^ 8 = maskHi.toNat by omega] at hdiv
  rw [show (hi.toNat * 256 + lo.toNat) % 2 ^ 8 = lo.toNat by omega,
    show (maskHi.toNat * 256 + maskLo.toNat) % 2 ^ 8 = maskLo.toNat by omega] at hmod
  rw [BitVec.toNat_and, BitVec.toNat_and, ← hdiv, ← hmod]
  omega

/-- Two bytes are determined by the 16-bit number they make. -/
theorem two_bytes_eq_iff (hi lo hi' lo' : Byte) :
    hi.toNat * 256 + lo.toNat = hi'.toNat * 256 + lo'.toNat ↔ hi = hi' ∧ lo = lo' := by
  have := lo.isLt
  have := lo'.isLt
  rw [← BitVec.toNat_inj, ← BitVec.toNat_inj]
  omega

/-- The test of a row's exclusion is one of byte 1. -/
theorem land_seven_eq_six (b0 b1 : Byte) :
    (b0.toNat * 256 + b1.toNat) &&& 7 = 6 ↔ b1 &&& 7 = 6 := by
  have hland := land_two_bytes b0 b1 0 7
  have hpair := two_bytes_eq_iff (b0 &&& 0) (b1 &&& 7) 0 6
  rw [← hland] at hpair
  simpa using hpair

/-- A row of a register/memory opcode tests byte 0 for the opcode and byte 1 for the form. -/
theorem hits_row (op : Byte) (f : FormTest) (b0 b1 : Byte) :
    (f.row op).hits b0 b1 = (b0 == op && f.hits b1) := by
  obtain ⟨mask, pattern, excludesDirect, length⟩ := f
  have hland := land_two_bytes b0 b1 0xFF mask
  have hpair := two_bytes_eq_iff (b0 &&& 0xFF) (b1 &&& mask) op pattern
  rw [← hland, show b0 &&& 0xFF = b0 from BitVec.and_allOnes] at hpair
  have hexclude := land_seven_eq_six b0 b1
  rw [Bool.eq_iff_iff]
  cases excludesDirect with
  | false => simpa [TableRow.hits, TableRow.key, FormTest.row, FormTest.hits] using hpair
  | true =>
    have hboth := and_congr hpair (not_congr hexclude)
    simpa [TableRow.hits, TableRow.key, FormTest.row, FormTest.hits, and_assoc] using hboth

/-- Every byte 1 passes the test of exactly one form. -/
theorem countP_hits_formTests : ∀ b1 : Byte, formTests.countP (·.hits b1) = 1 := by decide

/-- Of an opcode's rows exactly one matches where byte 0 is that opcode, and else none. -/
theorem countP_hits_row (op b0 b1 : Byte) :
    (formTests.map (FormTest.row op)).countP (·.hits b0 b1) = if b0 = op then 1 else 0 := by
  rw [List.countP_map]
  by_cases hop : b0 = op
  · simp [Function.comp_def, hits_row, hop, countP_hits_formTests]
  · simp [Function.comp_def, hits_row, hop]

/-- The row of format IMM for a width. -/
def immRow (w : Bool) : TableRow :=
  ⟨8, if w then 0xB8 else 0xB0, 0xF8, none, if w then 3 else 2⟩

theorem immRows_eq : immRows = [immRow false, immRow true] := rfl

theorem key_immRow (w : Bool) (b0 b1 : Byte) : (immRow w).key b0 b1 = b0.toNat := rfl

theorem hits_immRow_zero : ∀ (w : Bool) (b0 : Byte),
    (immRow w).hits b0 0 = (classify b0 == .immMov && immWidthBit b0 == w) := by decide

/-- An immediate row tests byte 0 only, for its opcode pattern and its width bit. -/
theorem hits_immRow (w : Bool) (b0 b1 : Byte) :
    (immRow w).hits b0 b1 = (classify b0 == .immMov && immWidthBit b0 == w) := by
  rw [← hits_immRow_zero]
  simp only [TableRow.hits, key_immRow]

theorem countP_hits_immRows (b0 b1 : Byte) :
    immRows.countP (·.hits b0 b1) = if classify b0 = .immMov then 1 else 0 := by
  rw [immRows_eq]
  by_cases hclass : classify b0 = .immMov
  · cases hw : immWidthBit b0 <;> simp [hits_immRow, hclass, hw]
  · simp [hits_immRow, hclass]

theorem opcode_count_eq_class : ∀ b0 : Byte,
    (if b0 = 0x88 then 1 else 0) + (if b0 = 0x89 then 1 else 0) + (if b0 = 0x8A then 1 else 0) +
      (if b0 = 0x8B then 1 else 0) + (if classify b0 = .immMov then 1 else 0) =
    if classify b0 = .unsupported then 0 else 1 := by decide

/-- Exactly one row matches a key with a supported first byte, and none matches any other. -/
theorem length_filter_hits_opcodeTable (b0 b1 : Byte) :
    (opcodeTable.filter (·.hits b0 b1)).length = if classify b0 = .unsupported then 0 else 1 := by
  rw [← List.countP_eq_length_filter, opcodeTable_eq]
  simp only [List.countP_append, countP_hits_row, countP_hits_immRows]
  exact opcode_count_eq_class b0

/-! The row of each form. -/

section TableRows

variable (d w : Bool) (reg rm : Fin 8) (b : Byte) (x : Word)

theorem tableRow_rowMod11 :
    opcodeTable[(rowMod11 d w reg rm).row]? = some (mod11Test.row (rmOpcode d w)) := by
  cases d <;> cases w <;> rfl

theorem tableRow_rowMod00 :
    opcodeTable[(rowMod00 d w reg rm).row]? = some (mod00Test.row (rmOpcode d w)) := by
  cases d <;> cases w <;> rfl

theorem tableRow_rowDirect :
    opcodeTable[(rowDirect d w reg x).row]? = some (directTest.row (rmOpcode d w)) := by
  cases d <;> cases w <;> rfl

theorem tableRow_rowMod01 :
    opcodeTable[(rowMod01 d w reg rm b).row]? = some (mod01Test.row (rmOpcode d w)) := by
  cases d <;> cases w <;> rfl

theorem tableRow_rowMod10 :
    opcodeTable[(rowMod10 d w reg rm x).row]? = some (mod10Test.row (rmOpcode d w)) := by
  cases d <;> cases w <;> rfl

end TableRows

theorem hits_mod11Test : ∀ reg rm, mod11Test.hits (modRM 3 reg rm) = true := by decide

theorem hits_mod00Test : ∀ reg rm, rm ≠ 6 → mod00Test.hits (modRM 0 reg rm) = true := by decide

theorem hits_directTest : ∀ reg, directTest.hits (modRM 0 reg 6) = true := by decide

theorem hits_mod01Test : ∀ reg rm, mod01Test.hits (modRM 1 reg rm) = true := by decide

theorem hits_mod10Test : ∀ reg rm, mod10Test.hits (modRM 2 reg rm) = true := by decide

/-- The row of an instruction's constructor matches the first two bytes of its encoding and has its
length. -/
theorem exists_row_of_encode {i : Instr} {b0 b1 : Byte} {more rest : List Byte} (hwf : i.wf = true)
    (h : b0 :: b1 :: more = encode i ++ rest) :
    ∃ r, opcodeTable[i.row]? = some r ∧ r.hits b0 b1 = true ∧ r.length = i.length := by
  induction i using Instr.byForm with
  | mod11 d w reg rm =>
    rw [encode_rowMod11] at h
    cases h
    exact ⟨_, tableRow_rowMod11 d w reg rm, by simp [hits_row, hits_mod11Test],
      (length_rowMod11 d w reg rm).symm⟩
  | mod00 d w reg rm =>
    have hrm : rm ≠ 6 := by simpa using hwf
    rw [encode_rowMod00] at h
    cases h
    exact ⟨_, tableRow_rowMod00 d w reg rm, by simp [hits_row, hits_mod00Test, hrm],
      (length_rowMod00 d w reg rm).symm⟩
  | direct d w reg addr =>
    rw [encode_rowDirect] at h
    cases h
    exact ⟨_, tableRow_rowDirect d w reg addr, by simp [hits_row, hits_directTest],
      (length_rowDirect d w reg addr).symm⟩
  | mod01 d w reg rm disp =>
    rw [encode_rowMod01] at h
    cases h
    exact ⟨_, tableRow_rowMod01 d w reg rm disp, by simp [hits_row, hits_mod01Test],
      (length_rowMod01 d w reg rm disp).symm⟩
  | mod10 d w reg rm disp =>
    rw [encode_rowMod10] at h
    cases h
    exact ⟨_, tableRow_rowMod10 d w reg rm disp, by simp [hits_row, hits_mod10Test],
      (length_rowMod10 d w reg rm disp).symm⟩
  | imm8 reg imm =>
    cases h
    exact ⟨immRow false, rfl, by simp [hits_immRow], rfl⟩
  | imm16 reg imm =>
    cases h
    exact ⟨immRow true, rfl, by simp [hits_immRow], rfl⟩

/-- Settles O8: the table by its opcodes and forms, and the decoder's answer by the bytes it encodes to. -/
theorem opcodeTableRowsAreTheDecoders : Obligations.OpcodeTableRowsAreTheDecoders := by
  refine ⟨rfl, fun b0 b1 b2 b3 => ⟨length_filter_hits_opcodeTable b0 b1, fun i rest h => ?_⟩⟩
  obtain ⟨hwf, hbytes⟩ := encodeOfDecode _ _ _ h
  exact exists_row_of_encode hwf hbytes

end Sys2Proof.Machine

/-! SUPPORT. Proofs of the statements on the dispatcher (40_dispatch.md): the refinement of the spec's `Step`
(R160 over R91, R114, R135), the fatal unsupported byte (R92), `Decode` past the end (R95), the routing by
class (R90) and the step that runs what was fetched (R160). -/

namespace Sys2Proof.Machine

/-! The spec's `Step`, case by case (R160). -/

section SpecStep

variable {s : State}

theorem specStep_at_end (hc : s.cursor = s.stream.length) : specStep s = s.finish := if_pos hc

theorem specStep_of_ok {m : Move} {text : Line} {k : Nat} (hc : s.cursor ≠ s.stream.length)
    (h : decodeAt s.stream s.cursor = .ok m text k) : specStep s = (s.emit text).advance k := by
  rw [specStep, if_neg hc, h]
  rfl

theorem specStep_of_fault {f : FaultRecord} (hc : s.cursor ≠ s.stream.length)
    (h : decodeAt s.stream s.cursor = .fault f) : specStep s = s.takeFault f := by
  rw [specStep, if_neg hc, h]
  rfl

end SpecStep

/-- Settles O50: a running state has a next state, and in each case of that step, told by what `Decode`
returns, the spec's `Step` gives the same state. -/
theorem stepIsTheSpecsStep : Obligations.StepIsTheSpecsStep := by
  intro s hS hrun
  obtain ⟨t, ht⟩ := exists_step_of_run hrun
  obtain ⟨-, ⟨hend, rfl⟩ | ⟨hne, m, text, k, hdec, rfl⟩ | ⟨hne, f, hdec, rfl⟩⟩ :=
    step_next_decodeAt_cases hS ht
  · rw [ht, specStep_at_end hend]
  · rw [ht, specStep_of_ok hne hdec]
  · rw [ht, specStep_of_fault hne hdec]

/-! The faults of the dispatcher (R92, R95). -/

section DispatchFaults

variable {S : Memory} {c : Nat} {s : State}

theorem decodeAt_of_unsupported {b0 : Byte} (hc : c < S.length) (hb0 : S.byteAt c = some b0)
    (hclass : classify b0 = .unsupported) : decodeAt S c = .fault (.unsupportedOpcode b0 c) := by
  simp only [decodeAt, if_neg (Nat.not_le.mpr hc), hb0, hclass]

theorem decodeAt_past_end (hend : S.length ≤ c) :
    decodeAt S c = .fault (.truncatedInstruction c 1 0) := if_pos hend

/-- The fault that `Decode` raises at the cursor is the one that the step takes (R162, R176). -/
theorem step_of_decodeAt_fault {f : FaultRecord} (hS : s.stream.wf = true) (hrun : s.status = .run)
    (hc : s.cursor ≠ s.n) (h : decodeAt s.stream s.cursor = .fault f) :
    step s = .next (s.takeFault f) := by
  rw [stepIsTheSpecsStep s hS hrun, specStep_of_fault hc h]

end DispatchFaults

/-- Settles O37: the one byte at the cursor is there and decides `Decode`, and the state that the fault
leaves has status `FAULT`, in which no step is enabled. -/
theorem unsupportedFirstByteFaults : Obligations.UnsupportedFirstByteFaults := by
  refine ⟨fun s b hready hclass => ?_, by decide⟩
  have hb : s.stream.byteAt s.cursor = some b := hready.bytesHere 0 b rfl
  have hlt := Memory.lt_length_of_byteAt hready.streamWf hb
  have hdec := decodeAt_of_unsupported hlt hb hclass
  refine ⟨hdec, _, step_of_decodeAt_fault hready.streamWf hready.running hlt.ne hdec, rfl,
    fun u hu => ?_⟩
  rw [step_of_faulted (State.takeFault_status ..)] at hu
  cases hu

/-- Settles O39: `Decode` tests for the end first, and a cursor past the end is not at it. -/
theorem decodePastTheEnd : Obligations.DecodePastTheEnd :=
  ⟨fun _ _ => decodeAt_past_end,
    fun _ hrun hS hpast => step_of_decodeAt_fault hS hrun hpast.ne' (decodeAt_past_end hpast.le)⟩

/-! The classes of the first byte and their handlers (R90). -/

section Classify

variable {b0 : Byte}

/-- Each class by the two tests, of which the first one to pass decides. -/
theorem classify_eq_iff_masks :
    (classify b0 = .rmMov ↔ b0 &&& 0xFC = 0x88) ∧
    (classify b0 = .immMov ↔ b0 &&& 0xFC ≠ 0x88 ∧ b0 &&& 0xF0 = 0xB0) ∧
    (classify b0 = .unsupported ↔ b0 &&& 0xFC ≠ 0x88 ∧ b0 &&& 0xF0 ≠ 0xB0) := by
  unfold classify
  by_cases hrm : b0 &&& 0xFC = 0x88
  · simp only [hrm, if_true, ne_eq, not_true_eq_false, false_and]
    decide
  · by_cases himm : b0 &&& 0xF0 = 0xB0
    · simp only [hrm, himm, if_true, if_false, ne_eq]
      decide
    · simp only [hrm, himm, if_false, ne_eq]
      decide

theorem classify_eq_rmMov_iff_mem : ∀ b : Byte,
    classify b = .rmMov ↔ b ∈ [0x88, 0x89, 0x8A, 0x8B] := by decide

theorem classify_eq_immMov_iff_range : ∀ b : Byte,
    classify b = .immMov ↔ 0xB0 ≤ b.toNat ∧ b.toNat ≤ 0xBF := by decide

theorem decode_of_rmMov (b1 : Byte) (more : List Byte) (h : classify b0 = .rmMov) :
    decode (b0 :: b1 :: more) = decodeRM (dirBit b0) (widthBit b0) b1 more := by
  simp only [decode, h]

theorem decode_of_immMov (more : List Byte) (h : classify b0 = .immMov) :
    decode (b0 :: more) = decodeIMM (immWidthBit b0) (immRegField b0) more := by
  simp only [decode, h]

end Classify

/-- Settles O1: the mask tests are those of `classify`, the byte sets are read off at the 256 bytes, and
`decode` branches on the class. -/
theorem classifyByMaskAndPattern : Obligations.ClassifyByMaskAndPattern :=
  ⟨fun b =>
      have ⟨hrm, himm, hneither⟩ := classify_eq_iff_masks
      ⟨hrm, himm, hneither, classify_eq_rmMov_iff_mem b, classify_eq_immMov_iff_range b⟩,
    fun _ => decode_of_rmMov, fun _ => decode_of_immMov⟩

/-- Settles O22: the bytes at the cursor are what the step fetches, and it retires the instruction's move
and length, which is the instruction's effect. -/
theorem stepRunsTheFetchedInstruction : Obligations.StepRunsTheFetchedInstruction := by
  intro s i rest hrun hne hfetch
  rw [step_of_fetch_ok hrun hne hfetch, exec_eq_retire]
  rfl

end Sys2Proof.Machine

/-! SUPPORT. Proofs of the statements on the register/memory handler (41_mov_rm.md): the fields (R101), the
five addressing forms as bytes at the cursor (R104 to R108), the operand order (R109), the effect of the
four opcodes (R110 to R113) and an instruction that the stream cuts short (R102). -/

namespace Sys2Proof.Machine

/-! The decoder on the bytes of each addressing form (R63). -/

section Forms

variable {b0 b1 : Byte}

/-- Byte 1 put together again from a known `mod` and its two other fields. -/
theorem modRM_of_bits {mod : Nat} (h : bits b1 7 6 = mod) :
    modRM mod (regField b1) (rmField b1) = b1 := by
  rw [← h, bits_mod_eq_code]
  exact modRM_fields b1

theorem modRM_six_of_bits {mod : Nat} (h : bits b1 7 6 = mod) (hrm : bits b1 2 0 = 6) :
    modRM mod (regField b1) 6 = b1 := by
  rw [← (rmField_eq_six_iff b1).mpr hrm]
  exact modRM_of_bits h

variable (b lo hi : Byte) (more : List Byte) (hclass : classify b0 = .rmMov)

include hclass

theorem decode_mod11 (hmod : bits b1 7 6 = 3) : decode (b0 :: b1 :: more) =
    .ok (rowMod11 (dirBit b0) (widthBit b0) (regField b1) (rmField b1)) more := by
  rw [decode_of_rmMov b1 _ hclass, ← decodeRM_mod11, modRM_of_bits hmod]

theorem decode_mod00 (hmod : bits b1 7 6 = 0) (hrm : bits b1 2 0 ≠ 6) :
    decode (b0 :: b1 :: more) =
      .ok (rowMod00 (dirBit b0) (widthBit b0) (regField b1) (rmField b1)) more := by
  rw [decode_of_rmMov b1 _ hclass, ← decodeRM_mod00 _ _ _ _ _ (mt (rmField_eq_six_iff b1).mp hrm),
    modRM_of_bits hmod]

theorem decode_direct (hmod : bits b1 7 6 = 0) (hrm : bits b1 2 0 = 6) :
    decode (b0 :: b1 :: lo :: hi :: more) =
      .ok (rowDirect (dirBit b0) (widthBit b0) (regField b1) (u16le lo hi)) more := by
  rw [decode_of_rmMov b1 _ hclass, ← decodeRM_direct, modRM_six_of_bits hmod hrm]

theorem decode_mod01 (hmod : bits b1 7 6 = 1) : decode (b0 :: b1 :: b :: more) =
    .ok (rowMod01 (dirBit b0) (widthBit b0) (regField b1) (rmField b1) b) more := by
  rw [decode_of_rmMov b1 _ hclass, ← decodeRM_mod01, modRM_of_bits hmod]

theorem decode_mod10 (hmod : bits b1 7 6 = 2) : decode (b0 :: b1 :: lo :: hi :: more) =
    .ok (rowMod10 (dirBit b0) (widthBit b0) (regField b1) (rmField b1) (u16le lo hi)) more := by
  rw [decode_of_rmMov b1 _ hclass, ← decodeRM_mod10, modRM_of_bits hmod]

end Forms

/-- Four bytes are enough for every format-RM instruction (R60, R101). -/
theorem exists_decode_four_of_rmMov {b0 : Byte} (b1 b2 b3 : Byte) (hclass : classify b0 = .rmMov) :
    ∃ i rest, decode [b0, b1, b2, b3] = .ok i rest := by
  have hmod := bits_mod_eq_code b1
  cases hform : modField b1 <;> rw [hform] at hmod
  case registerDirect => exact ⟨_, _, decode_mod11 _ hclass hmod⟩
  case memory =>
    by_cases hrm : bits b1 2 0 = 6
    · exact ⟨_, _, decode_direct _ _ _ hclass hmod hrm⟩
    · exact ⟨_, _, decode_mod00 _ hclass hmod hrm⟩
  case memoryDisp8 => exact ⟨_, _, decode_mod01 _ _ hclass hmod⟩
  case memoryDisp16 => exact ⟨_, _, decode_mod10 _ _ _ hclass hmod⟩

/-- Settles O3: the fields are read off at the 256 bytes, and each of the five forms has its bytes among
the four. -/
theorem fieldExtraction : Obligations.FieldExtraction :=
  ⟨by decide, fun _ b1 b2 b3 => exists_decode_four_of_rmMov b1 b2 b3, by decide⟩

/-! The line and the effect of a register/memory move, from its other operand (R109, R160). -/

theorem lineText_movOf (d w : Bool) (reg : RegIndex) (X : Operand) :
    lineText (movOf d (regOperand w reg) X) = movLine d (nameOf w reg) (operandText X) := by
  cases d <;> cases w <;> rfl

theorem operandText_regOperand (w : Bool) (i : RegIndex) :
    operandText (regOperand w i) = nameOf w i := by
  cases w <;> rfl

/-- The operand in Lean's own signed reading of its displacement. -/
theorem memDisp8_eq_toInt (row : EaRow) (b : Byte) :
    memDisp8 row b = .mem (.baseDisp row b.toInt) := by
  rw [memDisp8, s8_toInt]

theorem memDisp16_eq_toInt (row : EaRow) (x : Word) :
    memDisp16 row x = .mem (.baseDisp row x.toInt) := by
  rw [memDisp16, s16_toInt]

section Effect

variable {i : Instr} {d w : Bool} {reg : RegIndex} {X : Operand}

theorem exec_of_moveOf_eq (h : moveOf i = movOf d (regOperand w reg) X) (s : State) :
    exec i s = .next { s with
      sink := s.sink ++ [movLine d (nameOf w reg) (operandText X)],
      cursor := s.cursor + i.length } := by
  rw [exec_eq_retire, retire_eq, h, lineText_movOf]

/-- Bytes at the cursor that decode retire as that instruction: what follows them plays no part. -/
theorem retiresAs_of_decode {s : State} {bs rest : List Byte} (hready : s.Ready bs)
    (hdec : decode bs = .ok i rest) : RetiresAs s (moveOf i) (lineText (moveOf i)) i.length := by
  obtain ⟨more, hbytes⟩ := hready.isPrefix_drop
  have hhere := decode_append hdec more
  rw [hbytes] at hhere
  constructor
  · rw [decodeAt_eq_resultOf hready.streamWf, hhere, resultOf]
  · rw [step_eq_exec_of_decode hready.running hready.streamWf hhere, exec_eq_retire, retire_eq]

theorem retiresAs_movOf {s : State} {bs rest : List Byte} {k : Nat} (hready : s.Ready bs)
    (hdec : decode bs = .ok i rest) (hmove : moveOf i = movOf d (regOperand w reg) X)
    (hlen : i.length = k) :
    RetiresAs s (movOf d (regOperand w reg) X) (movLine d (nameOf w reg) (operandText X)) k := by
  rw [← lineText_movOf, ← hmove, ← hlen]
  exact retiresAs_of_decode hready hdec

end Effect

/-! The five forms as bytes at the cursor (R104 to R108). -/

/-- Settles O9, by the register-direct form. -/
theorem registerDirectBytes : Obligations.RegisterDirectBytes := by
  intro s b0 b1 hready hclass hmod
  rw [← operandText_regOperand _ (rmField b1)]
  exact retiresAs_movOf hready (decode_mod11 [] hclass hmod) (moveOf_rowMod11 ..)
    (length_rowMod11 ..)

/-- Settles O10, by the form without displacement, whose operand is held with displacement 0. -/
theorem memoryWithoutDisplacementBytes : Obligations.MemoryWithoutDisplacementBytes :=
  fun _ _ _ hready hclass hmod hrm =>
    retiresAs_movOf hready (decode_mod00 [] hclass hmod hrm) (moveOf_rowMod00 ..)
      (length_rowMod00 ..)

/-- Settles O11, by the direct form; the address joins its two bytes, the low one first. -/
theorem directAddressBytes : Obligations.DirectAddressBytes := by
  intro s b0 b1 lo hi hready hclass hmod hrm
  rw [← u16le_append]
  exact retiresAs_movOf hready (decode_direct lo hi [] hclass hmod hrm) (moveOf_rowDirect ..)
    (length_rowDirect ..)

/-- The displacement byte 0xFF is -1. -/
theorem addrText_disp8_minus_one (row : EaRow) :
    addrText (.baseDisp row (0xFF : Byte).toInt) = eaBase row ++ " - 1" := by
  rw [addrText_of_neg row (by decide), String.append_assoc]
  rfl

/-- Settles O12, by the 8-bit displacement form, and by the sign of the two displacements. -/
theorem displacement8Bytes : Obligations.Displacement8Bytes := by
  intro s b0 b1 b2 hready hclass hmod
  refine ⟨?_, ?_, ?_⟩
  · exact retiresAs_movOf hready (decode_mod01 b2 [] hclass hmod)
      (by rw [moveOf_rowMod01, memDisp8_eq_toInt]) (length_rowMod01 ..)
  · rintro rfl
    exact addrText_zero _
  · rintro rfl
    exact addrText_disp8_minus_one _

/-- Settles O13, by the 16-bit displacement form; the example is computed. -/
theorem displacement16Bytes : Obligations.Displacement16Bytes := by
  refine ⟨?_, by decide, by decide, by decide, by decide⟩
  intro s b0 b1 lo hi hready hclass hmod
  rw [← u16le_append]
  exact retiresAs_movOf hready (decode_mod10 lo hi [] hclass hmod)
    (by rw [moveOf_rowMod10, memDisp16_eq_toInt]) (length_rowMod10 ..)

/-! The four opcodes (R110 to R113), whose direction and width bits are all that tells them apart. -/

/-- The effect of the five forms of the opcode with the bits `d` and `w`. -/
theorem exec_rm_forms (d w : Bool) (s : State) (reg rm : RegIndex) (row : EaRow) (addr : Word)
    (d8 : Byte) (d16 : Word) :
    exec (rowMod11 d w reg rm) s = .next { s with
      sink := s.sink ++ [movLine d (nameOf w reg) (nameOf w rm)], cursor := s.cursor + 2 } ∧
    exec (rowMod00 d w reg row) s = .next { s with
      sink := s.sink ++ [movLine d (nameOf w reg) ("[" ++ eaBase row ++ "]")],
      cursor := s.cursor + 2 } ∧
    exec (rowDirect d w reg addr) s = .next { s with
      sink := s.sink ++ [movLine d (nameOf w reg) ("[" ++ dec addr.toNat ++ "]")],
      cursor := s.cursor + 4 } ∧
    exec (rowMod01 d w reg row d8) s = .next { s with
      sink := s.sink ++
        [movLine d (nameOf w reg) ("[" ++ addrText (.baseDisp row d8.toInt) ++ "]")],
      cursor := s.cursor + 3 } ∧
    exec (rowMod10 d w reg row d16) s = .next { s with
      sink := s.sink ++
        [movLine d (nameOf w reg) ("[" ++ addrText (.baseDisp row d16.toInt) ++ "]")],
      cursor := s.cursor + 4 } := by
  refine ⟨?_, ?_, ?_, ?_, ?_⟩
  · rw [exec_of_moveOf_eq (moveOf_rowMod11 ..), operandText_regOperand, length_rowMod11]
  · rw [exec_of_moveOf_eq (moveOf_rowMod00 ..), length_rowMod00]
    rfl
  · rw [exec_of_moveOf_eq (moveOf_rowDirect ..), length_rowDirect]
    rfl
  · rw [exec_of_moveOf_eq (moveOf_rowMod01 ..), memDisp8_eq_toInt, length_rowMod01]
    rfl
  · rw [exec_of_moveOf_eq (moveOf_rowMod10 ..), memDisp16_eq_toInt, length_rowMod10]
    rfl

/-- Settles O16: `d` = 0, `w` = 0. -/
theorem movRm8R8Result : Obligations.MovRm8R8Result := exec_rm_forms false false

/-- Settles O17: `d` = 0, `w` = 1. -/
theorem movRm16R16Result : Obligations.MovRm16R16Result := exec_rm_forms false true

/-- Settles O18: `d` = 1, `w` = 0. -/
theorem movR8Rm8Result : Obligations.MovR8Rm8Result := exec_rm_forms true false

/-- Settles O19: `d` = 1, `w` = 1. -/
theorem movR16Rm16Result : Obligations.MovR16Rm16Result := exec_rm_forms true true

/-! The operand order (R109, R116). -/

theorem dirBit_eq_getLsbD : ∀ b : Byte, dirBit b = b.getLsbD 1 := by decide

theorem widthBit_eq_getLsbD : ∀ b : Byte, widthBit b = b.getLsbD 0 := by decide

theorem bits_modRM : ∀ (mod : Fin 4) (reg rm : Fin 8),
    bits (modRM mod.val reg rm) 7 6 = mod.val := by decide

@[simp] theorem bits_modRM_of_lt {mod : Nat} (h : mod < 4) (reg rm : Fin 8) :
    bits (modRM mod reg rm) 7 6 = mod := bits_modRM ⟨mod, h⟩ reg rm

theorem bracket_notMem_nameOf : ∀ (w : Bool) (i : RegIndex), '[' ∉ (nameOf w i).toList := by decide

theorem bracket_mem_mem (e : EAExpr) : '[' ∈ (operandText (.mem e)).toList := by
  simp [operandText]

/-- The first two bytes of a format-RM encoding give the `reg` operand and its place in the move, and say
whether the other operand is a memory operand. -/
theorem exists_moveOf_of_encode {i : Instr} {b0 b1 : Byte} {more rest : List Byte}
    (hclass : classify b0 = .rmMov) (h : b0 :: b1 :: more = encode i ++ rest) :
    ∃ X, moveOf i = movOf (dirBit b0) (regOperand (widthBit b0) (regField b1)) X ∧
      ('[' ∈ (operandText X).toList ↔ bits b1 7 6 ≠ 3) := by
  induction i using Instr.byForm with
  | mod11 d w reg rm =>
    rw [encode_rowMod11] at h
    cases h
    exact ⟨regOperand w rm, by simp, by simp [operandText_regOperand, bracket_notMem_nameOf]⟩
  | mod00 d w reg rm =>
    rw [encode_rowMod00] at h
    cases h
    exact ⟨memBase rm, by simp, by simp [memBase, bracket_mem_mem]⟩
  | direct d w reg addr =>
    rw [encode_rowDirect] at h
    cases h
    exact ⟨memDirect addr, by simp, by simp [memDirect, bracket_mem_mem]⟩
  | mod01 d w reg rm disp =>
    rw [encode_rowMod01] at h
    cases h
    exact ⟨memDisp8 rm disp, by simp, by simp [memDisp8, bracket_mem_mem]⟩
  | mod10 d w reg rm disp =>
    rw [encode_rowMod10] at h
    cases h
    exact ⟨memDisp16 rm disp, by simp, by simp [memDisp16, bracket_mem_mem]⟩
  | imm8 reg imm =>
    cases h
    simp at hclass
  | imm16 reg imm =>
    cases h
    simp at hclass

/-- Settles O30: the bytes are the instruction's encoding, so its move has the `reg` operand on the side
that the direction bit selects, and the other operand's text is the text asked for. -/
theorem directionFixesTheOrder : Obligations.DirectionFixesTheOrder := by
  intro b0 b1 more rest i hclass hdec
  obtain ⟨-, hbytes⟩ := encodeOfDecode _ _ _ hdec
  obtain ⟨X, hmove, hbracket⟩ := exists_moveOf_of_encode hclass hbytes
  refine ⟨operandText X, hbracket, fun s => ⟨_, exec_of_moveOf_eq hmove s, ?_⟩⟩
  rw [← dirBit_eq_getLsbD, ← widthBit_eq_getLsbD]
  rfl

/-! An instruction cut short by the end of the stream (R102, R131, R172). -/

section Short

variable {d w : Bool} {reg rm : Fin 8} {bs : List Byte}

theorem decodeRM_direct_of_short (h : bs.length < 2) :
    decodeRM d w (modRM 0 reg 6) bs = .truncated 4 := by
  have hmod : modField (modRM 0 reg 6) = .memory := modField_modRM 0 reg 6
  rcases bs with _ | ⟨lo, _ | ⟨hi, more⟩⟩
  · simp [decodeRM, hmod]
  · simp [decodeRM, hmod]
  · simp at h

theorem decodeRM_mod01_of_short (h : bs.length < 1) :
    decodeRM d w (modRM 1 reg rm) bs = .truncated 3 := by
  have hmod : modField (modRM 1 reg rm) = .memoryDisp8 := modField_modRM 1 reg rm
  rcases bs with _ | ⟨disp, more⟩
  · simp [decodeRM, hmod]
  · simp at h

theorem decodeRM_mod10_of_short (h : bs.length < 2) :
    decodeRM d w (modRM 2 reg rm) bs = .truncated 4 := by
  have hmod : modField (modRM 2 reg rm) = .memoryDisp16 := modField_modRM 2 reg rm
  rcases bs with _ | ⟨lo, _ | ⟨hi, more⟩⟩
  · simp [decodeRM, hmod]
  · simp [decodeRM, hmod]
  · simp at h

/-- The first `k` bytes of a format-RM encoding: byte 0 alone needs a byte 1, and from two bytes on the
handler says what is needed (R102, checks 1 and 2). -/
theorem decode_take_rm {b1 : Byte} {k L : Nat} (hpos : 0 < k)
    (hshort : 1 < k → decodeRM d w b1 (bs.take (k - 2)) = .truncated L) :
    decode ((rmOpcode d w :: b1 :: bs).take k) = .truncated (if k = 1 then 2 else L) := by
  rcases k with _ | _ | k
  · cases hpos
  · simp [decode]
  · simpa [decode_rmOpcode] using hshort (by omega)

end Short

/-- The first bytes of an encoding, some but not all of them, decode as truncated: format RM needs 2
bytes as far as byte 0 alone tells, and otherwise the whole length is known (R172). -/
theorem decode_take_encode {i : Instr} {k : Nat} (hpos : 0 < k) (hk : k < i.length) :
    decode ((encode i).take k) = .truncated (if k = 1 ∧ i.isRM = true then 2 else i.length) := by
  induction i using Instr.byForm with
  | mod11 d w reg rm =>
    obtain rfl : k = 1 := by rw [length_rowMod11] at hk; omega
    simp [decode]
  | mod00 d w reg rm =>
    obtain rfl : k = 1 := by rw [length_rowMod00] at hk; omega
    simp [decode]
  | direct d w reg addr =>
    rw [length_rowDirect] at hk
    simpa [Instr.isRM] using decode_take_rm hpos fun _ => decodeRM_direct_of_short (by simp; omega)
  | mod01 d w reg rm disp =>
    rw [length_rowMod01] at hk
    simpa [Instr.isRM] using decode_take_rm hpos fun _ => decodeRM_mod01_of_short (by simp; omega)
  | mod10 d w reg rm disp =>
    rw [length_rowMod10] at hk
    simpa [Instr.isRM] using decode_take_rm hpos fun _ => decodeRM_mod10_of_short (by simp; omega)
  | imm8 reg imm =>
    obtain rfl : k = 1 := by simp only [Instr.length] at hk; omega
    simp [Instr.isRM, encode, decode_immOpcode_zero, decodeIMM, Instr.length]
  | imm16 reg imm =>
    obtain rfl | rfl : k = 1 ∨ k = 2 := by simp only [Instr.length] at hk; omega
    · simp [Instr.isRM, encode, decode_immOpcode_one, decodeIMM, Instr.length]
    · simp [encode, decode_immOpcode_one, decodeIMM, Instr.length]

/-- Settles O38: the bytes up to the end are the first ones of the encoding, which `Decode` finds
truncated, and the step takes that fault. -/
theorem truncatedInstructionFaults : Obligations.TruncatedInstructionFaults := by
  intro s i here missing _ henc hhere hmissing hready
  have hpos := List.length_pos_of_ne_nil hhere
  have hk : here.length < i.length := by
    rw [← length_encode, henc, List.length_append]
    have := List.length_pos_of_ne_nil hmissing
    omega
  have havail : s.n - s.cursor = here.length := by
    rw [← hready.bytesToEnd, List.length_drop, Memory.length_bytes, State.n]
  have hdec := decodeAt_eq_resultOf hready.streamWf s.cursor
  rw [hready.bytesToEnd, ← List.take_left (l₁ := here) (l₂ := missing), ← henc,
    decode_take_encode hpos hk, resultOf, ← State.n, havail] at hdec
  exact step_of_decodeAt_fault hready.streamWf hready.running (by omega) hdec

end Sys2Proof.Machine

/-! SUPPORT. Proofs of the statements on the immediate moves (42_mov_imm.md): the two forms as bytes at the
cursor (R133, R134), their effect (R160), and that two of them never print one line (R136). -/

namespace Sys2Proof.Machine

/-! The decoder on the bytes of each width (R65, R130). -/

section Forms

variable {b0 : Byte} (b lo hi : Byte) (more : List Byte) (hclass : classify b0 = .immMov)

include hclass

theorem decode_imm8 (hwidth : bits b0 3 3 = 0) :
    decode (b0 :: b :: more) = .ok (.movR8Imm8 (immRegField b0) b) more := by
  rw [decode_of_immMov _ hclass, immWidthBit, hwidth]
  rfl

theorem decode_imm16 (hwidth : bits b0 3 3 = 1) :
    decode (b0 :: lo :: hi :: more) = .ok (.movR16Imm16 (immRegField b0) (u16le lo hi)) more := by
  rw [decode_of_immMov _ hclass, immWidthBit, hwidth]
  rfl

end Forms

/-! The move of each width, in Lean's own signed reading of the immediate: like a register/memory move
with the direction bit set, its register operand comes first. -/

theorem moveOf_imm8 (reg : RegIndex) (imm : Byte) :
    moveOf (.movR8Imm8 reg imm) = movOf true (regOperand false reg) (.imm imm.toInt) := by
  rw [← s8_toInt]
  rfl

theorem moveOf_imm16 (reg : RegIndex) (imm : Word) :
    moveOf (.movR16Imm16 reg imm) = movOf true (regOperand true reg) (.imm imm.toInt) := by
  rw [← s16_toInt]
  rfl

/-- Settles O20: the register operand comes first and the other operand is the immediate. -/
theorem movImmediateResult : Obligations.MovImmediateResult :=
  fun s reg i8 i16 =>
    ⟨exec_of_moveOf_eq (moveOf_imm8 reg i8) s, exec_of_moveOf_eq (moveOf_imm16 reg i16) s⟩

/-- Settles O14, by the byte form. -/
theorem byteImmediateBytes : Obligations.ByteImmediateBytes := by
  intro s b0 b1 hready hclass hwidth
  refine ⟨?_, ?_⟩
  · exact retiresAs_movOf hready (decode_imm8 b1 [] hclass hwidth) (moveOf_imm8 ..) rfl
  · rw [← s8_toInt]
    exact s8_range b1

/-- Settles O15, by the word form; the immediate joins its two bytes, the low one first. -/
theorem wordImmediateBytes : Obligations.WordImmediateBytes := by
  intro s b0 lo hi hready hclass hwidth
  rw [← u16le_append]
  refine ⟨?_, ?_⟩
  · exact retiresAs_movOf hready (decode_imm16 lo hi [] hclass hwidth) (moveOf_imm16 ..) rfl
  · rw [← s16_toInt]
    exact s16_range (u16le lo hi)

/-! Different immediate moves, different lines (R136). -/

/-- The move of a format-IMM instruction gives the instruction back: its direction and its length play
no part. -/
theorem instrOf_moveOf_of_imm {i : Instr} (himm : i.isRM = false) (d : Bool) (k : Nat) :
    instrOf d (moveOf i) k = some i := by
  induction i using Instr.byForm with
  | mod11 | mod00 | direct | mod01 | mod10 => simp [Instr.isRM] at himm
  | imm8 reg imm => exact instrOf_regOperand_imm8 d reg imm k
  | imm16 reg imm => exact instrOf_regOperand_imm16 d reg imm k

/-- Two instructions that leave the same sink behind, from one state, have the same move. -/
theorem moveOf_eq_of_exec_sink_eq {i j : Instr} {s t u : State} (hi : exec i s = .next t)
    (hj : exec j s = .next u) (hsink : t.sink = u.sink) : moveOf i = moveOf j := by
  rw [exec_eq_retire, retire_eq] at hi hj
  cases hi
  cases hj
  exact lineText_injective (by simpa using hsink)

/-- Settles O34: the line gives back the move, and the move the instruction. -/
theorem immediateLinesDiffer : Obligations.ImmediateLinesDiffer := by
  intro i j s t u hiImm hjImm hi hj hsink
  have hmove := moveOf_eq_of_exec_sink_eq hi hj hsink
  apply Option.some.inj
  rw [← instrOf_moveOf_of_imm hiImm true 0, hmove, instrOf_moveOf_of_imm hjImm]

end Sys2Proof.Machine

/-! SUPPORT. Proofs of the statements on the text of operands and lines (43_operand_format.md): the
displacement suffix (R142), the brackets and the line (R143, R146), the shape of a line (R150), and that
a line determines its move. -/

namespace Sys2Proof.Machine

/-- Settles O33: the formatter is injective, the one comma telling where the destination ends. -/
theorem lineDeterminesTheMove : Obligations.LineDeterminesTheMove :=
  fun _ _ h => lineText_injective h

/-- Settles O28: the two forms are the formatter's equations; the three example lines are evaluated. -/
theorem operandAndLineText : Obligations.OperandAndLineText :=
  ⟨fun _ => rfl, fun _ _ => rfl, by decide, by decide, by decide⟩

/-! The displacement suffix (R142). -/

/-- The suffix by the sign of the displacement, with the magnitude as the statement spells it. -/
theorem addrText_by_sign (row : EaRow) (disp : Int) :
    (disp = 0 → addrText (.baseDisp row disp) = eaBase row) ∧
    (0 < disp → addrText (.baseDisp row disp) = eaBase row ++ " + " ++ dec disp.toNat) ∧
    (disp < 0 → addrText (.baseDisp row disp) = eaBase row ++ " - " ++ dec (-disp).toNat) := by
  refine ⟨?_, fun hpos => ?_, fun hneg => ?_⟩
  · rintro rfl
    exact addrText_zero row
  · have hmagnitude : disp.toNat = disp.natAbs := by omega
    rw [addrText_of_pos row hpos, hmagnitude]
  · have hmagnitude : (-disp).toNat = disp.natAbs := by omega
    rw [addrText_of_neg row hneg, hmagnitude]

/-- The magnitudes that can follow each sign: a minus reaches one further than a plus. -/
theorem s16_magnitude_bounds (x : Word) :
    (0 < s16 x → 1 ≤ (s16 x).toNat ∧ (s16 x).toNat ≤ 32767) ∧
    (s16 x < 0 → 1 ≤ (-s16 x).toNat ∧ (-s16 x).toNat ≤ 32768) := by
  have hrange := s16_range x
  omega

/-- Settles O27, by the sign of the displacement; a zero field reads as 0 at either width. -/
theorem displacementSuffix : Obligations.DisplacementSuffix :=
  ⟨addrText_by_sign, s16_magnitude_bounds, fun row => ⟨addrText_zero row, addrText_zero row⟩,
    by decide, by decide, by decide, by decide⟩

/-! The shape of a line (R150). It follows from the grammar (R73): each word of the grammar has a shape,
and the shape of a concatenation is the sum of the shapes. -/

/-- The characters that R150 lists. -/
def lineChars : List Char := "abcdhilmopsvx0123456789 ,[]+-".toList

/-- A text of `lo` to `hi` characters of R150's list, so many of them commas, opening brackets and closing
brackets. -/
abbrev TextShape (commas opens closes lo hi : Nat) (t : String) : Prop :=
  t.toList.count ',' = commas ∧ t.toList.count '[' = opens ∧ t.toList.count ']' = closes ∧
    (lo ≤ t.length ∧ t.length ≤ hi) ∧ t.toList ⊆ lineChars

section TextShape

variable {commas opens closes lo hi commas' opens' closes' lo' hi' : Nat} {t u : String}

theorem TextShape.append (ht : TextShape commas opens closes lo hi t)
    (hu : TextShape commas' opens' closes' lo' hi' u) :
    TextShape (commas + commas') (opens + opens') (closes + closes') (lo + lo') (hi + hi') (t ++ u) := by
  obtain ⟨htcommas, htopens, htcloses, htlength, htchars⟩ := ht
  obtain ⟨hucommas, huopens, hucloses, hulength, huchars⟩ := hu
  refine ⟨?_, ?_, ?_, ?_, ?_⟩
  · rw [String.toList_append, List.count_append, htcommas, hucommas]
  · rw [String.toList_append, List.count_append, htopens, huopens]
  · rw [String.toList_append, List.count_append, htcloses, hucloses]
  · rw [String.length_append]
    omega
  · rw [String.toList_append]
    exact List.append_subset.mpr ⟨htchars, huchars⟩

/-- The bounds on the length can be loosened. -/
theorem TextShape.mono (ht : TextShape commas opens closes lo hi t) (hlo : lo' ≤ lo) (hhi : hi ≤ hi') :
    TextShape commas opens closes lo' hi' t := by
  obtain ⟨hcommas, hopens, hcloses, ⟨hlow, hhigh⟩, hchars⟩ := ht
  exact ⟨hcommas, hopens, hcloses, ⟨hlo.trans hlow, hhigh.trans hhi⟩, hchars⟩

end TextShape

/-! The words of the grammar. -/

theorem IsReg8.textShape : ∀ {t : String}, IsReg8 t → TextShape 0 0 0 2 2 t := by
  unfold IsReg8
  decide

theorem IsReg16.textShape : ∀ {t : String}, IsReg16 t → TextShape 0 0 0 2 2 t := by
  unfold IsReg16
  decide

theorem IsBase.textShape : ∀ {t : String}, IsBase t → TextShape 0 0 0 2 7 t := by
  unfold IsBase
  decide

/-- Each digit multiplies what was read before it by ten. -/
theorem mul_pow_length_le_foldl (cs : List Char) (v : Nat) :
    v * 10 ^ cs.length ≤ cs.foldl (fun v c => 10 * v + (c.toNat - '0'.toNat)) v := by
  induction cs generalizing v with
  | nil => simp
  | cons c cs ih =>
    calc v * 10 ^ (cs.length + 1) = 10 * v * 10 ^ cs.length := by ring
      _ ≤ (10 * v + (c.toNat - '0'.toNat)) * 10 ^ cs.length :=
        Nat.mul_le_mul_right _ (Nat.le_add_right _ _)
      _ ≤ _ := ih _

/-- Without leading zeros a number below `10 ^ (k + 1)` has at most `k + 1` digits. -/
theorem IsNumber.length_le {t : String} {k : Nat} (h : IsNumber t)
    (hvalue : digitsValue t < 10 ^ (k + 1)) : t.length ≤ k + 1 := by
  obtain rfl | ⟨c, cs, rfl, hc, -⟩ := h
  · exact Nat.le_add_left 1 k
  · have hfirst : 1 ≤ c.toNat - '0'.toNat :=
      (by simp : ∀ c ∈ "123456789".toList, 1 ≤ c.toNat - '0'.toNat) c hc
    have hpow : 10 ^ cs.length < 10 ^ (k + 1) :=
      calc 10 ^ cs.length ≤ (c.toNat - '0'.toNat) * 10 ^ cs.length := Nat.le_mul_of_pos_left _ hfirst
        _ ≤ digitsValue (String.ofList (c :: cs)) := by
          simpa [digitsValue] using mul_pow_length_le_foldl cs (c.toNat - '0'.toNat)
        _ < 10 ^ (k + 1) := hvalue
    have hlength : cs.length < k + 1 := (Nat.pow_lt_pow_iff_right (by decide)).mp hpow
    simpa [Nat.add_comm 1] using hlength

theorem IsNumber.subset_digits {t : String} (h : IsNumber t) : t.toList ⊆ "0123456789".toList := by
  obtain rfl | ⟨c, cs, rfl, hc, hcs⟩ := h
  · decide
  · have hnonzero : "123456789".toList ⊆ "0123456789".toList := by decide
    rw [String.toList_ofList]
    exact List.cons_subset.mpr ⟨hnonzero hc, hcs⟩

theorem IsNumber.count_eq_zero {t : String} {c : Char} (h : IsNumber t)
    (hc : c ∉ "0123456789".toList) : t.toList.count c = 0 :=
  List.count_eq_zero.mpr fun hmem => hc (h.subset_digits hmem)

theorem IsNumber.length_pos {t : String} (h : IsNumber t) : 1 ≤ t.length := by
  obtain rfl | ⟨c, cs, rfl, -, -⟩ := h
  · decide
  · simp

theorem IsNumberIn.textShape {lo hi : Nat} {t : String} (h : IsNumberIn lo hi t) (hhi : hi ≤ 65535) :
    TextShape 0 0 0 1 5 t := by
  obtain ⟨hnumber, -, hvalue⟩ := h
  have hlength : t.length ≤ 5 := hnumber.length_le (by omega)
  have hchars : "0123456789".toList ⊆ lineChars := by decide
  exact ⟨hnumber.count_eq_zero (by decide), hnumber.count_eq_zero (by decide),
    hnumber.count_eq_zero (by decide), ⟨hnumber.length_pos, hlength⟩,
    List.Subset.trans hnumber.subset_digits hchars⟩

/-! The operands. -/

theorem textShape_brackets {lo hi : Nat} {t : String} (h : TextShape 0 0 0 lo hi t) :
    TextShape 0 1 1 (lo + 2) (hi + 2) ("[" ++ t ++ "]") := by
  have hopen : TextShape 0 1 0 1 1 "[" := by decide
  have hclose : TextShape 0 0 1 1 1 "]" := by decide
  exact ((hopen.append h).append hclose).mono (by omega) (by omega)

/-- A base with a signed displacement; the longest is `[bx + si - 32768]`. -/
theorem textShape_displaced {lo hi : Nat} {b sign k : String} (hb : IsBase b)
    (hsign : TextShape 0 0 0 3 3 sign) (hk : IsNumberIn lo hi k) (hhi : hi ≤ 65535) :
    TextShape 0 1 1 3 17 ("[" ++ (b ++ sign ++ k) ++ "]") := by
  have hinner := (hb.textShape.append hsign).append (hk.textShape hhi)
  exact (textShape_brackets hinner).mono (by decide) (by decide)

theorem IsMem.textShape {t : String} (h : IsMem t) : TextShape 0 1 1 3 17 t := by
  obtain ⟨b, hb, rfl⟩ | ⟨b, k, hb, hk, rfl⟩ | ⟨b, k, hb, hk, rfl⟩ | ⟨k, hk, rfl⟩ := h
  · exact (textShape_brackets hb.textShape).mono (by decide) (by decide)
  · exact textShape_displaced hb (by decide) hk (by decide)
  · exact textShape_displaced hb (by decide) hk (by decide)
  · exact (textShape_brackets (hk.textShape (by decide))).mono (by decide) (by decide)

theorem IsImm.textShape {below above : Nat} {t : String} (h : IsImm below above t)
    (hbelow : below ≤ 65535) (habove : above ≤ 65535) : TextShape 0 0 0 1 6 t := by
  have hsign : TextShape 0 0 0 1 1 "-" := by decide
  obtain hk | ⟨k, hk, rfl⟩ := h
  · exact (hk.textShape habove).mono (by decide) (by decide)
  · exact (hsign.append (hk.textShape hbelow)).mono (by decide) (by decide)

/-! The line. -/

/-- R150: one comma, no brackets or one pair, 9 to 25 characters, all of them listed. -/
def HasLineShape (l : Line) : Prop := ∃ pairs, pairs ≤ 1 ∧ TextShape 1 pairs pairs 9 25 l

/-- `mov `, the comma and the space take six characters, so the operands have 3 to 19 between them. -/
theorem hasLineShape_of_operands {p q lo hi lo' hi' : Nat} {a b : String}
    (ha : TextShape 0 p p lo hi a) (hb : TextShape 0 q q lo' hi' b) (hpairs : p + q ≤ 1 := by decide)
    (hlo : 3 ≤ lo + lo' := by decide) (hhi : hi + hi' ≤ 19 := by decide) :
    HasLineShape ("mov " ++ a ++ ", " ++ b) := by
  have hmov : TextShape 0 0 0 4 4 "mov " := by decide
  have hseparator : TextShape 1 0 0 2 2 ", " := by decide
  have hline := ((hmov.append ha).append hseparator).append hb
  simp only [Nat.zero_add, Nat.add_zero] at hline
  exact ⟨p + q, hpairs, hline.mono (by omega) (by omega)⟩

theorem IsRMLine.hasLineShape {l : Line} (h : IsRMLine l) : HasLineShape l := by
  obtain ⟨a, b, rfl, ⟨ha, hb⟩ | ⟨ha, hb⟩ | ⟨ha, hb⟩ | ⟨ha, hb⟩⟩ := h
  · exact hasLineShape_of_operands ha.textShape hb.textShape
  · exact hasLineShape_of_operands ha.textShape hb.textShape
  · exact hasLineShape_of_operands (ha.elim (·.textShape) (·.textShape)) hb.textShape
  · exact hasLineShape_of_operands ha.textShape (hb.elim (·.textShape) (·.textShape))

theorem IsIMMLine.hasLineShape {l : Line} (h : IsIMMLine l) : HasLineShape l := by
  obtain ⟨a, b, rfl, ⟨ha, hb⟩ | ⟨ha, hb⟩⟩ := h
  · exact hasLineShape_of_operands ha.textShape (hb.textShape (by decide) (by decide))
  · exact hasLineShape_of_operands ha.textShape (hb.textShape (by decide) (by decide))

/-- Settles O31: the line an instruction adds is in the grammar, and every line of the grammar has the
shape; the two bounds are attained by the instructions that R150 names. -/
theorem lineShape : Obligations.LineShape := by
  refine ⟨fun i s t hexec => ?_, fun s => ⟨_, _, rfl, rfl, by decide⟩,
    fun s => ⟨_, _, rfl, rfl, by decide⟩⟩
  obtain ⟨l, hsink, hRM, hIMM⟩ := linesFollowTheGrammar i s t hexec
  have hshape : HasLineShape l := by
    cases hformat : i.isRM with
    | true => exact (hRM hformat).hasLineShape
    | false => exact (hIMM hformat).hasLineShape
  obtain ⟨pairs, hpairs, hcommas, hopens, hcloses, ⟨hlow, hhigh⟩, hchars⟩ := hshape
  exact ⟨l, hsink, hlow, hhigh, hcommas, by omega, fun _ hc => hchars hc⟩

end Sys2Proof.Machine

/-! SUPPORT. Proofs of the statements on the sequencer (44_sequencer.md): the normal end (R161), a fault taken
(R162), the end of every run (R167, R197), and a run over encoded instructions to its normal end or its first
fault. -/

namespace Sys2Proof.Machine

/-! The two ends of a run, as one step (R161, R162). -/

/-- Settles O42: the end of the stream is tested first; of the steps that answer a next state, one that
retires leaves the status `RUN` and one that takes a fault leaves `FAULT`, so `DONE` is the normal end. -/
theorem normalEnd : Obligations.NormalEnd := by
  refine ⟨fun _ => step_at_end, fun s t h hdone => ?_, fun name => step_at_end rfl rfl⟩
  obtain ⟨hrun, ⟨hend, -⟩ | ⟨-, i, rest, m, -, -, rfl⟩ | ⟨-, b, -, rfl⟩ | ⟨-, k, -, rfl⟩⟩ :=
    step_next_cases h
  · exact hend
  · simp [hrun] at hdone
  · cases hdone
  · cases hdone

/-- Settles O40: of the steps on a canonical stream only one that takes the fault of `Decode` leaves the
status `FAULT`. -/
theorem faultIsLatchedAndNothingElse : Obligations.FaultIsLatchedAndNothingElse := by
  intro s t hS h hfault
  obtain ⟨hrun, ⟨-, rfl⟩ | ⟨-, m, text, k, -, rfl⟩ | ⟨-, f, hdec, rfl⟩⟩ :=
    step_next_decodeAt_cases hS h
  · cases hfault
  · simp [hrun] at hfault
  · exact ⟨f, hdec, rfl⟩

/-! Runs, step by step. -/

section Runs

variable {s t : State}

theorem runSteps_succ_of_step (h : step s = .next t) (k : Nat) :
    runSteps (k + 1) s = runSteps k t := by
  simp only [runSteps, h]

theorem runSteps_one_of_step (h : step s = .next t) : runSteps 1 s = .next t :=
  runSteps_succ_of_step h 0

/-- A run goes on from the state that its first `j` steps reach. -/
theorem runSteps_add_of_next {j : Nat} (h : runSteps j s = .next t) (k : Nat) :
    runSteps (j + k) s = runSteps k t := by
  induction j generalizing s with
  | zero => cases h; rw [Nat.zero_add]
  | succ j ih =>
    cases hstep : step s with
    | next u =>
      rw [runSteps_succ_of_step hstep] at h
      rw [Nat.succ_add, runSteps_succ_of_step hstep, ih h]
    | fault r => simp [runSteps, hstep] at h
    | refused r => simp [runSteps, hstep] at h

end Runs

/-- Settles O54, by induction on the bytes left: a step that goes on uses up at least two of them. -/
theorem everyRunEnds : Obligations.EveryRunEnds := by
  intro s
  induction hleft : s.n - s.cursor using Nat.strong_induction_on generalizing s with
  | _ left ih =>
    intro hrun hS hc
    obtain ⟨t, hstep⟩ := exists_step_of_run hrun
    obtain ⟨hstream, -⟩ := step_keeps_parameters hstep
    have hn : t.n = s.n := congrArg List.length hstream
    obtain ⟨htrun, -, htc, hadvance⟩ | ⟨hended, -, -⟩ :=
      cursorAdvancesByWholeInstructions s t hS hstep
    · obtain ⟨k, u, hk, hrest, hended⟩ :=
        ih (t.n - t.cursor) (by omega) t rfl htrun (hstream ▸ hS) htc
      exact ⟨k + 1, u, by omega, by rw [runSteps_succ_of_step hstep, hrest], hended⟩
    · exact ⟨1, t, by omega, runSteps_one_of_step hstep, hended⟩

/-! The effect of a list of instructions. -/

section ExecAll

variable {s t : State} {i : Instr} {is : List Instr}

theorem exists_exec_next (i : Instr) (s : State) : ∃ t, exec i s = .next t :=
  ⟨_, exec_eq_retire i s⟩

theorem execAll_cons_of_exec (h : exec i s = .next t) : execAll (i :: is) s = execAll is t := by
  simp only [execAll, h]

/-- Instructions leave the stream as it is and add one line each (R40, R160). -/
theorem execAll_frame (h : execAll is s = .next t) :
    t.stream = s.stream ∧ t.sink.length = s.sink.length + is.length := by
  induction is generalizing s with
  | nil => cases h; exact ⟨rfl, rfl⟩
  | cons i is ih =>
    obtain ⟨u, hexec⟩ := exists_exec_next i s
    rw [execAll_cons_of_exec hexec] at h
    obtain ⟨hstream, hsink⟩ := ih h
    obtain ⟨hstream', -, -, -, -, ⟨l, hline⟩, -⟩ := instructionFrame i s u hexec
    refine ⟨hstream.trans hstream', ?_⟩
    rw [hsink, hline, List.length_append, List.length_singleton, List.length_cons]
    omega

end ExecAll

/-! A state whose stream, from the cursor to its end, is given bytes. -/

section ReadyToEnd

variable {s t : State} {bs : List Byte}

theorem State.ReadyToEnd.cursor_add_length (h : s.ReadyToEnd bs) : s.cursor + bs.length = s.n := by
  have hcursor := h.cursorInStream
  rw [← h.bytesToEnd, List.length_drop, Memory.length_bytes]
  exact Nat.add_sub_cancel' hcursor

/-- Where the bytes to the end begin with an encoding, the step runs that instruction (R160). -/
theorem State.ReadyToEnd.step_eq_exec {i : Instr} (h : s.ReadyToEnd (encode i ++ bs))
    (hwf : i.wf = true) : step s = exec i s :=
  step_eq_exec_of_decode h.running h.streamWf (h.bytesToEnd ▸ decodeOfEncode i bs hwf)

/-- After an instruction the bytes to the end are those that followed its encoding (R24, R160). -/
theorem State.ReadyToEnd.of_exec {i : Instr} (h : s.ReadyToEnd (encode i ++ bs))
    (hexec : exec i s = .next t) : t.ReadyToEnd bs := by
  obtain ⟨hstream, -, -, hstatus, -, -, hcursor⟩ := instructionFrame i s t hexec
  have hlen := h.cursor_add_length
  rw [List.length_append, length_encode] at hlen
  have hn : t.n = s.n := congrArg List.length hstream
  refine ⟨hstatus.trans h.running, hstream ▸ h.streamWf, by omega, ?_⟩
  rw [hstream, hcursor, ← List.drop_drop, h.bytesToEnd, List.drop_left' (length_encode i)]

/-- A run over the encodings of well-formed instructions has their effects in order, one step each, and
comes to the bytes that follow them (R166). -/
theorem exists_run_of_encodings {is : List Instr} (hwf : ∀ i ∈ is, i.wf = true)
    (h : s.ReadyToEnd (is.flatMap encode ++ bs)) :
    ∃ t, execAll is s = .next t ∧ runSteps is.length s = .next t ∧ t.ReadyToEnd bs := by
  induction is generalizing s with
  | nil => exact ⟨s, rfl, rfl, h⟩
  | cons i is ih =>
    obtain ⟨hi, his⟩ := List.forall_mem_cons.mp hwf
    rw [List.flatMap_cons, List.append_assoc] at h
    obtain ⟨u, hexec⟩ := exists_exec_next i s
    obtain ⟨t, hall, hrun, ht⟩ := ih his (h.of_exec hexec)
    refine ⟨t, ?_, ?_, ht⟩
    · rw [execAll_cons_of_exec hexec, hall]
    · rw [List.length_cons, runSteps_succ_of_step ((h.step_eq_exec hi).trans hexec), hrun]

/-- Bytes to the end that do not decode are a fault at the offset where they begin, and the step takes it
(R162). -/
theorem State.ReadyToEnd.step_eq_takeFault {f : FaultRecord} (h : s.ReadyToEnd bs) (hne : bs ≠ [])
    (hbad : resultOf (s.n - bs.length) s.n (decode bs) = .fault f) :
    step s = .next (s.takeFault f) := by
  have hlen := h.cursor_add_length
  have hpos := List.length_pos_of_ne_nil hne
  refine step_of_decodeAt_fault h.streamWf h.running (by omega) ?_
  rw [decodeAt_eq_resultOf h.streamWf, h.bytesToEnd, ← hbad, ← hlen, Nat.add_sub_cancel, hlen,
    State.n]

/-- A run over encoded instructions and then bytes that do not decode has the instructions' effects in
order and then takes the fault (R167, R177). -/
theorem exists_run_then_fault {is : List Instr} {f : FaultRecord} (hwf : ∀ i ∈ is, i.wf = true)
    (hne : bs ≠ []) (h : s.ReadyToEnd (is.flatMap encode ++ bs))
    (hbad : resultOf (s.n - bs.length) s.n (decode bs) = .fault f) :
    ∃ t, execAll is s = .next t ∧ runSteps (is.length + 1) s = .next (t.takeFault f) := by
  obtain ⟨t, hall, hrun, ht⟩ := exists_run_of_encodings hwf h
  obtain ⟨hstream, -⟩ := execAll_frame hall
  have hn : t.n = s.n := congrArg List.length hstream
  refine ⟨t, hall, ?_⟩
  rw [runSteps_add_of_next hrun, runSteps_one_of_step (ht.step_eq_takeFault hne (hn ▸ hbad))]

end ReadyToEnd

/-- Settles O55: the run over the encodings comes to the end of the stream, where one more step ends it. -/
theorem runPrintsEveryInstruction : Obligations.RunPrintsEveryInstruction := by
  intro s is hwf h
  rw [← List.append_nil (is.flatMap encode)] at h
  obtain ⟨t, hall, hrun, ht⟩ := exists_run_of_encodings hwf h
  obtain ⟨-, hsink⟩ := execAll_frame hall
  have hend : t.cursor = t.n := ht.cursor_add_length
  refine ⟨t, hall, hrun, hend, hsink, ?_⟩
  rw [runSteps_add_of_next hrun, runSteps_one_of_step (step_at_end ht.running hend)]
  rfl

/-- Settles O56: each of the two ways not to decode is the spec's fault of that kind, and the bytes that a
truncation has are all those from the offset to the end. -/
theorem runStopsAtTheFirstFault : Obligations.RunStopsAtTheFirstFault := by
  intro s is bad hwf hne h
  have havail : s.n - (s.n - bad.length) = bad.length := by
    have hlen := h.cursor_add_length
    rw [List.length_append] at hlen
    omega
  exact ⟨fun b hdec => exists_run_then_fault hwf hne h (by rw [hdec, resultOf]),
    fun needed hdec => exists_run_then_fault hwf hne h (by rw [hdec, resultOf, havail])⟩

end Sys2Proof.Machine

/-! SUPPORT. Proofs of the statement on what the host sees (60_exceptions.md): the exit status and the view of
a state in each status (R182). -/

namespace Sys2Proof.Machine

/-- Whatever value is chosen for the open parameter, the exit status is not zero (R182, D11). -/
theorem exitStatus_ne_zero : exitStatus ≠ 0 :=
  Nat.succ_ne_zero Config.exitStatusLessOne

section HostView

variable {s : State}

theorem State.hostView_of_run (h : s.status = .run) : s.hostView = .running := by
  simp only [State.hostView, h]

theorem State.hostView_of_done (h : s.status = .done) : s.hostView = .normalEnd := by
  simp only [State.hostView, h]

theorem State.hostView_of_fault (h : s.status = .fault) :
    s.hostView = .abnormalEnd exitStatus s.fault := by
  simp only [State.hostView, h]

end HostView

/-- Settles O58, from the view of a state in each of the three statuses. -/
theorem hostSeesTheOutcome : Obligations.HostSeesTheOutcome :=
  ⟨exitStatus_ne_zero, fun _ =>
    ⟨State.hostView_of_run, State.hostView_of_done, State.hostView_of_fault⟩⟩

end Sys2Proof.Machine

/-! SUPPORT. Proof of the statement on entering an instruction in its middle (70_reset_and_hazards.md): what
the bytes from an offset decode to settles what the spec's `Decode` returns there (R196). -/

namespace Sys2Proof.Machine

/-- On the environment's stream of some bytes, `Decode` at an offset returns the move, the line and the
length of the instruction that the bytes from there decode to. -/
theorem decodeAt_ofBytes_of_decode {bs rest : List Byte} {c : Nat} {i : Instr}
    (h : decode (bs.drop c) = .ok i rest) :
    decodeAt (Memory.ofBytes bs) c = .ok (moveOf i) (lineText (moveOf i)) i.length := by
  rw [decodeAt_eq_resultOf (Memory.wf_ofBytes bs), Memory.bytes_ofBytes, h, resultOf]

/-- Settles O57: `0x89` is the low byte of the immediate for an entry at offset 0 and the opcode of a
register move for an entry at offset 1. -/
theorem midInstructionEntry : Obligations.MidInstructionEntry := by
  have hfrom0 : decode [0xB8, 0x89, 0xD9] = .ok (.movR16Imm16 0 0xD989) [] :=
    decode_imm16 0x89 0xD9 [] (by decide) (by decide)
  have hfrom1 : decode [0x89, 0xD9] = .ok (.movRm16R16Mod11 3 1) [] :=
    decode_mod11 [] (by decide) (by decide)
  exact ⟨Eq.trans (decodeAt_ofBytes_of_decode hfrom0) (by decide),
    Eq.trans (decodeAt_ofBytes_of_decode hfrom1) (by decide)⟩

end Sys2Proof.Machine
